-- ==== Sys2Proof/Word.lean ====
section
/-! DEFINITION. The word types of the block: a byte (a colour channel, an input byte) and a 32-bit word (a register, a
byte offset). -/

namespace Sys2Proof

/-- A `u8`: a byte of the input buffer, or one colour channel (00_scope.md R6, R8). -/
abbrev Byte := BitVec 8

/-- A 32-bit register value or byte offset (00_scope.md R6, `ADDR_W` = 32; 10_state.md R35). -/
abbrev Word := BitVec 32

end Sys2Proof
end

