-- ==== Sys2Proof/Config.lean ====
section
/-! DEFINITION. What an implementation fixes (00_scope.md R6), and the free values: constants with no body, so that no
proof can see a value of one. -/

namespace Sys2Proof.Config

/-- `SIGNATURE`, the four bytes every stream starts with, `SIG[0]` the most significant (00_scope.md R6, OPEN;
92_eei_decisions.md D6). Log 1. -/
opaque signature : Word

/-- Free value: which of the values a register has held in this decode a host read returns while BUSY
(70_reset_and_hazards.md R319; 93_implementation_defined.md U10). Applied to the draw counter. Log 9. -/
opaque freeMoment : Nat → Nat

/-- Free value: whether the pixel that stands on the output interface at a power-on reset is delivered
(70_reset_and_hazards.md R310; 93_implementation_defined.md U12). Applied to the draw counter. Log 11. -/
opaque freeDelivered : Nat → Bool

end Sys2Proof.Config
end

