-- ==== Sys2Proof/Syntax.lean ====
section
/-! DEFINITION. The instructions: one constructor for each row of spec/opcode_table.json, with the raw fields of the
encoding as operands (30_encoding.md R110; 90_conflicts.md C2). -/

namespace Sys2Proof

/-- The eight encoded units the block consumes (00_scope.md R2; 30_encoding.md R102 to R109). -/
inductive Instr where
  /-- DIFF (Delta): three raw 2-bit deltas (R102). -/
  | diff (drRaw dgRaw dbRaw : BitVec 2)
  /-- INDEX (CacheRef): a cache slot number (R103). -/
  | index (slot : BitVec 6)
  /-- LUMA (LumaDelta): the raw green delta, red minus green and blue minus green (R104). -/
  | luma (dgRaw : BitVec 6) (drdgRaw dbdgRaw : BitVec 4)
  /-- RGB: three literal channels (R105). -/
  | rgb (r g b : Byte)
  /-- RGBA: four literal channels (R106). -/
  | rgba (r g b a : Byte)
  /-- RUN: the raw run value, the run length less one (R107). -/
  | run (runRaw : BitVec 6)
  /-- END: the eight trailer bytes (R108). -/
  | trailer
  /-- HEADER: the fields after the signature, which is the parameter `Config.signature` (R109). -/
  | header (width height : Word) (channels colorspace : Byte)
  deriving DecidableEq, Repr

end Sys2Proof
end

