-- ==== Sys2Proof/WellFormed.lean ====
section
/-! DEFINITION. Which instructions have an encoding. The operand widths of `Instr` give every range but one: a run's raw
value is 0 to 61 (30_encoding.md R107, R114). -/

namespace Sys2Proof

/-- An instruction the stream can hold: the raw run values 62 and 63 are reserved (30_encoding.md R114). -/
def Instr.wf : Instr → Bool
  | .run runRaw => decide (runRaw.toNat < 62)
  | .diff _ _ _ => true
  | .index _ => true
  | .luma _ _ _ => true
  | .rgb _ _ _ => true
  | .rgba _ _ _ _ => true
  | .trailer => true
  | .header _ _ _ _ => true

end Sys2Proof
end

