-- ==== Sys2Proof/Decode.lean ====
section
/-! DEFINITION. From bytes to an instruction or a named rejection (30_encoding.md; 41_chunk_step.md R160 to R164;
40_header.md R140), and the encoder written from the same tables. Bit 7 of a byte is its most significant bit and fields
are read from bit 7 downwards (00_scope.md R7). -/

namespace Sys2Proof

/-- The block's error kinds (60_exceptions.md R270); the names by which the decoder rejects bytes. -/
inductive FormatError where
  /-- Code 1: the first four bytes differ from SIGNATURE. -/
  | badSignature
  /-- Code 2: the input ends before the header or the matched chunk is complete. -/
  | truncated
  /-- Code 3: no tag matches, or a reserved run value; no input raises it (30_encoding.md R115). -/
  | unknownChunkTag
  /-- Code 4: no byte is left at a chunk boundary. -/
  | missingTrailer
  deriving DecidableEq, Repr

/-- The six chunk kinds (00_scope.md R15). -/
inductive Kind where
  | diff | index | luma | rgb | rgba | run
  deriving DecidableEq, Repr

/-- The 2-bit tag `b0[7:6]` (30_encoding.md R101). -/
def tag2 (b0 : Byte) : BitVec 2 := b0.extractLsb' 6 2

/-- The field `b0[5:0]` of INDEX, LUMA and RUN (30_encoding.md R103, R104, R107). -/
def low6 (b0 : Byte) : BitVec 6 := b0.extractLsb' 0 6

/-- The chunk kind of a first byte, by the source's precedence, the two dead rejections kept (30_encoding.md R111, R114;
41_chunk_step.md R163). -/
def classify (b0 : Byte) : Except FormatError Kind :=
  if tag2 b0 = 0b01#2 then .ok .diff
  else if tag2 b0 = 0b00#2 then .ok .index
  else if tag2 b0 = 0b10#2 then .ok .luma
  else if b0 = 0xFE#8 then .ok .rgb
  else if b0 = 0xFF#8 then .ok .rgba
  else if tag2 b0 = 0b11#2 then
    if low6 b0 = 62#6 ∨ low6 b0 = 63#6 then .error .unknownChunkTag else .ok .run
  else .error .unknownChunkTag

/-- The fields of a chunk of a known kind. A chunk whose later bytes are not all there is truncated: a tag match is not
undone (30_encoding.md R102 to R107; 41_chunk_step.md R164). -/
def chunkFields (kind : Kind) (b0 : Byte) (later : List Byte) : Except FormatError Instr :=
  match kind, later with
  | .diff, _ => .ok (.diff (b0.extractLsb' 4 2) (b0.extractLsb' 2 2) (b0.extractLsb' 0 2))
  | .index, _ => .ok (.index (low6 b0))
  | .luma, b1 :: _ => .ok (.luma (low6 b0) (b1.extractLsb' 4 4) (b1.extractLsb' 0 4))
  | .luma, [] => .error .truncated
  | .rgb, b1 :: b2 :: b3 :: _ => .ok (.rgb b1 b2 b3)
  | .rgb, [] => .error .truncated
  | .rgb, [_] => .error .truncated
  | .rgb, [_, _] => .error .truncated
  | .rgba, b1 :: b2 :: b3 :: b4 :: _ => .ok (.rgba b1 b2 b3 b4)
  | .rgba, [] => .error .truncated
  | .rgba, [_] => .error .truncated
  | .rgba, [_, _] => .error .truncated
  | .rgba, [_, _, _] => .error .truncated
  | .run, _ => .ok (.run (low6 b0))

/-- The eight trailer bytes (30_encoding.md R108). -/
def trailerBytes : List Byte := [0x00, 0x00, 0x00, 0x00, 0x00, 0x00, 0x00, 0x01]

/-- The chunk-boundary decode of the bytes from the boundary to the end of the input (of which it looks at the first
eight): the trailer first, then the end of the input, then the tag, then the length (41_chunk_step.md R160;
60_exceptions.md R274). -/
def decodeChunk (bytes : List Byte) : Except FormatError Instr :=
  if bytes.take 8 = trailerBytes then .ok .trailer
  else
    match bytes with
    | [] => .error .missingTrailer
    | b0 :: later =>
      match classify b0 with
      | .error e => .error e
      | .ok kind => chunkFields kind b0 later

/-- Four bytes as a big-endian `u32`: the byte at the lower offset is the more significant (20_memory.md R72). -/
def wordOfBytes (b0 b1 b2 b3 : Byte) : Word := b0 ++ b1 ++ b2 ++ b3

/-- The decode of the header's bytes, with its three tests in the order of 40_header.md R140 (60_exceptions.md R273). -/
def decodeHeader (sig : Word) (bytes : List Byte) : Except FormatError Instr :=
  match bytes with
  | s0 :: s1 :: s2 :: s3 :: fields =>
    if wordOfBytes s0 s1 s2 s3 = sig then
      match fields with
      | w0 :: w1 :: w2 :: w3 :: h0 :: h1 :: h2 :: h3 :: channels :: colorspace :: _ =>
        .ok (.header (wordOfBytes w0 w1 w2 w3) (wordOfBytes h0 h1 h2 h3) channels colorspace)
      | _ => .error .truncated
    else .error .badSignature
  | _ => .error .truncated

/-- The bytes of a `u32` in stream order, most significant first (20_memory.md R72). -/
def bytesOfWord (w : Word) : List Byte :=
  [w.extractLsb' 24 8, w.extractLsb' 16 8, w.extractLsb' 8 8, w.extractLsb' 0 8]

/-- How many bytes an instruction takes: `len(b0)` for a chunk (30_encoding.md R112), 8 for the trailer (R108), 14 for the
header (R109). -/
def Instr.byteLength : Instr → Nat
  | .diff _ _ _ => 1
  | .index _ => 1
  | .luma _ _ _ => 2
  | .rgb _ _ _ => 4
  | .rgba _ _ _ _ => 5
  | .run _ => 1
  | .trailer => 8
  | .header _ _ _ _ => 14

/-- The instructions that are chunks (00_scope.md R14). -/
def Instr.isChunk : Instr → Bool
  | .diff _ _ _ => true
  | .index _ => true
  | .luma _ _ _ => true
  | .rgb _ _ _ => true
  | .rgba _ _ _ _ => true
  | .run _ => true
  | .trailer => false
  | .header _ _ _ _ => false

/-- The bytes of an instruction, in stream order (30_encoding.md R102 to R109, R118, R119). -/
def encode (sig : Word) : Instr → List Byte
  | .diff dr dg db => [0b01#2 ++ dr ++ dg ++ db]
  | .index slot => [0b00#2 ++ slot]
  | .luma dg drdg dbdg => [0b10#2 ++ dg, drdg ++ dbdg]
  | .rgb r g b => [0xFE, r, g, b]
  | .rgba r g b a => [0xFF, r, g, b, a]
  | .run runRaw => [0b11#2 ++ runRaw]
  | .trailer => trailerBytes
  | .header width height channels colorspace =>
    bytesOfWord sig ++ bytesOfWord width ++ bytesOfWord height ++ [channels, colorspace]

/-- The longest instruction is the header (30_encoding.md R109). -/
def longestInstr : Nat := 14

/-- An instruction's bytes from the table's numbering of its bits: bit 0 is the least significant bit of the first byte,
and every bit above `nbits` is 0. -/
def tableBytes (nbits w : Nat) : List Byte :=
  (List.range longestInstr).map fun k => BitVec.ofNat 8 (w % 2 ^ nbits / 256 ^ k)

/-- Whether a table row of `nbits` bits is the HEADER row, the only one of 14 bytes. PHASE, not a bit of the encoding, tells
the header from a chunk (10_state.md R34). -/
def isHeaderRow (nbits : Nat) : Bool := nbits == 8 * longestInstr

/-- The instruction the decoder reads from a word of the opcode table. -/
def decodeTableWord (nbits w : Nat) : Option Instr :=
  match (if isHeaderRow nbits then decodeHeader Config.signature (tableBytes nbits w)
         else decodeChunk (tableBytes nbits w)) with
  | .ok i => some i
  | .error _ => none

end Sys2Proof
end

