-- ==== Sys2Proof/Machine/State.lean ====
section
/-! DEFINITION. The machine's state: everything 10_state.md R30 lists, the memory interfaces of 20_memory.md, and the
model's own fields for the host's side, all plain data; why a step can stop; and the state after power-on reset. -/

namespace Sys2Proof.Machine

/-- A pixel `(r, g, b, a)` of four `u8` channels (00_scope.md R9). -/
structure Pixel where
  r : Byte
  g : Byte
  b : Byte
  a : Byte
  deriving DecidableEq, Repr

/-- `ZERO`, the zero pixel (00_scope.md R9). -/
def Pixel.zero : Pixel := ⟨0, 0, 0, 0⟩

/-- The pixel cache, 64 slots (10_state.md R32; 20_memory.md R76). -/
abbrev Cache := Vector Pixel 64

/-- `PHASE` (10_state.md R34). -/
inductive Phase where
  | header | chunks
  deriving DecidableEq, Repr

/-- `STATUS.STATE` (10_state.md R37). -/
inductive Status where
  | idle | busy | done | error
  deriving DecidableEq, Repr

/-- The fields of `HDR_FMT` (10_state.md R42). -/
structure HdrFmt where
  channels : Byte
  colorspace : Byte
  valid : Bool
  deriving DecidableEq, Repr

/-- The values, at one moment of a decode, of the registers that can change while BUSY (70_reset_and_hazards.md R319). -/
structure Moment where
  pos : Word
  hdrWidth : Word
  hdrHeight : Word
  hdrFmt : HdrFmt
  chunkCount : Word
  pixCount : BitVec 64
  deriving DecidableEq, Repr

/-- Bytes by address, in canonical form (`Memory.wf`). An address the list does not hold has no value (log 3). -/
abbrev Memory := List Host.Cell

/-- How many pixels the host's sink will still accept (20_memory.md R75, R80(c)). Log 6. -/
inductive Sink where
  /-- It accepts every pixel. -/
  | accepting
  /-- It accepts this many pixels, and then none until the host makes it ready again. -/
  | limited (pixels : Nat)
  deriving DecidableEq, Repr

/-- The output pixel stream and its valid/ready interface (20_memory.md R74, R75). -/
structure OutPort where
  /-- The pixels the sink has accepted, oldest first, over all decodes (log 7). -/
  stream : List Pixel
  /-- What the sink will still accept. -/
  sink : Sink
  /-- How many pixels of the chunk at `POS` the sink has accepted while the chunk waits (log 6). -/
  sent : Nat
  /-- The pixel that is offered and not accepted yet. -/
  offer : Option Pixel
  deriving DecidableEq, Repr

/-- What the host can do (00_scope.md R11; 20_memory.md R80; 70_reset_and_hazards.md R310, R313). -/
inductive HostAction where
  /-- Write a register: byte offset from the register base, access width in bytes, data (10_state.md R35). -/
  | writeReg (offset bytes : Nat) (value : Word)
  /-- Read a register: byte offset, access width in bytes (10_state.md R35). -/
  | readReg (offset bytes : Nat)
  /-- Place one byte in the input buffer (20_memory.md R80, R81). -/
  | load (addr : Word) (value : Byte)
  /-- Say what the output sink will accept from now on (20_memory.md R75). -/
  | setSink (sink : Sink)
  /-- Power-on reset (70_reset_and_hazards.md R310). -/
  | powerOn
  deriving DecidableEq, Repr

/-- One move of the two agents of 00_scope.md R11. -/
inductive Move where
  | block
  | host (action : HostAction)
  deriving DecidableEq, Repr

/-- The machine's state. -/
structure State where
  /-- The previous-pixel register (10_state.md R31). -/
  prev : Pixel
  /-- The pixel cache (10_state.md R32). -/
  cache : Cache
  /-- `POS`, the byte offset of the current chunk boundary (10_state.md R33). -/
  pos : Word
  /-- `PHASE` (10_state.md R34). -/
  phase : Phase
  /-- `CTRL`; START clears itself, so the register holds 0 between steps (10_state.md R36). -/
  ctrl : Word
  /-- `STATUS.STATE`; the register's other bits read 0 (10_state.md R37). -/
  status : Status
  /-- `ERROR.CODE`, none for code 0; the register's other bits read 0 (10_state.md R38). -/
  error : Option FormatError
  /-- `ERR_POS` (10_state.md R39). -/
  errPos : Word
  /-- `HDR_WIDTH` (10_state.md R40). -/
  hdrWidth : Word
  /-- `HDR_HEIGHT` (10_state.md R41). -/
  hdrHeight : Word
  /-- `HDR_FMT`; the register's reserved bits read 0 (10_state.md R42). -/
  hdrFmt : HdrFmt
  /-- `IN_LEN` (10_state.md R43). -/
  inLen : Word
  /-- `CHUNK_COUNT` (10_state.md R44). -/
  chunkCount : Word
  /-- `PIX_COUNT` (10_state.md R45). -/
  pixCount : BitVec 64
  /-- The input buffer `in` (20_memory.md R70). -/
  input : Memory
  /-- The output stream and its interface (20_memory.md R74, R75). -/
  out : OutPort
  /-- The model's own: the moves to come; when it is empty the block moves (log 4). -/
  schedule : List Move
  /-- The model's own: the word the host's last register read returned (log 10). -/
  readData : Word
  /-- The model's own: what the registers of R319 held earlier in this decode, newest first (log 9). -/
  moments : List Moment
  /-- The model's own: the number of free choices made so far (log 10). -/
  draws : Nat
  deriving DecidableEq, Repr

/-- Why the machine stops with a fault. -/
inductive Fault where
  /-- A read of the input buffer at or beyond `IN_LEN`, an offset that does not exist (20_memory.md R70). Raised by
  `State.readByte`; no step of the block does it. Safe. -/
  | beyondInLen (addr : Nat)
  /-- A read, below `IN_LEN`, of a buffer byte that nobody has placed (70_reset_and_hazards.md R313(1); log 3). Raised by
  `State.readByte`. Safe: the block would go on with an unknown byte. -/
  | neverLoaded (addr : Nat)
  deriving DecidableEq, Repr

/-- Why the model gives a step no meaning. -/
inductive Refusal where
  /-- An instruction that has no meaning yet. Raised by `exec`'s rejected arms only. Safe. -/
  | notModelled (mnemonic : String)
  /-- A register access of another width or alignment than 32 bits, or past offset 0xFF (00_scope.md R12; 10_state.md R35;
  20_memory.md R80(d); log 12). Raised by `hostAct`. Safe. -/
  | undefinedAccess (offset bytes : Nat)
  /-- The host changes a byte of `in[0 .. IN_LEN-1]` while BUSY (20_memory.md R80(b); log 13). Raised by `hostAct`. Safe. -/
  | bufferChangedWhileBusy (addr : Nat)
  deriving DecidableEq, Repr

/-- The machine after power-on reset (10_state.md R48; 70_reset_and_hazards.md R310). `prev` and the cache are unspecified
there and hold the zero pixel here (log 2); nothing has been placed in the input buffer or emitted. -/
def State.reset : State where
  prev := Pixel.zero
  cache := Vector.replicate 64 Pixel.zero
  pos := 0
  phase := .header
  ctrl := 0
  status := .idle
  error := none
  errPos := 0
  hdrWidth := 0
  hdrHeight := 0
  hdrFmt := ⟨0, 0, false⟩
  inLen := 0
  chunkCount := 0
  pixCount := 0
  input := []
  out := ⟨[], .accepting, 0, none⟩
  schedule := []
  readData := 0
  moments := []
  draws := 0

end Sys2Proof.Machine
end

