-- ==== Sys2Proof/Machine/Flags.lean ====
section
/-! DEFINITION. The status, error and header-format registers as 32-bit words, the `done` output, and the register map as
the host reads it. The block has no condition codes: `STATUS.STATE` is its only status flag (10_state.md R37, R46). -/

namespace Sys2Proof.Machine

/-- `STATUS` as a word: `STATE` in bits 1:0, the rest 0 (10_state.md R37). -/
def Status.word : Status → Word
  | .idle => 0
  | .busy => 1
  | .done => 2
  | .error => 3

/-- The code of an error kind (60_exceptions.md R270). -/
def errorCode : FormatError → BitVec 3
  | .badSignature => 1
  | .truncated => 2
  | .unknownChunkTag => 3
  | .missingTrailer => 4

/-- `ERROR` as a word: `CODE` in bits 2:0, 0 for no error, the rest 0 (10_state.md R38). -/
def errorWord : Option FormatError → Word
  | none => 0
  | some kind => (errorCode kind).zeroExtend 32

/-- `HDR_FMT` as a word: CHANNELS 7:0, COLORSPACE 15:8, VALID 16, the rest 0 (10_state.md R42). -/
def HdrFmt.word (f : HdrFmt) : Word := 0#15 ++ BitVec.ofBool f.valid ++ f.colorspace ++ f.channels

/-- The level output `done` (60_exceptions.md R279). -/
def State.doneSignal (s : State) : Bool := s.status == .done || s.status == .error

/-- The registers of 70_reset_and_hazards.md R319 as they stand. -/
def State.moment (s : State) : Moment where
  pos := s.pos
  hdrWidth := s.hdrWidth
  hdrHeight := s.hdrHeight
  hdrFmt := s.hdrFmt
  chunkCount := s.chunkCount
  pixCount := s.pixCount

/-- What a read at a byte offset returns when the registers of R319 are taken at moment `m`: the map of 10_state.md R35.
CTRL and the offsets past the last register read 0. -/
def State.registerAt (s : State) (m : Moment) (offset : Nat) : Word :=
  if offset = 0x04 then s.status.word
  else if offset = 0x08 then errorWord s.error
  else if offset = 0x0C then s.errPos
  else if offset = 0x10 then s.inLen
  else if offset = 0x14 then m.pos
  else if offset = 0x18 then m.hdrWidth
  else if offset = 0x1C then m.hdrHeight
  else if offset = 0x20 then m.hdrFmt.word
  else if offset = 0x24 then m.chunkCount
  else if offset = 0x28 then m.pixCount.extractLsb' 0 32
  else if offset = 0x2C then m.pixCount.extractLsb' 32 32
  else 0

end Sys2Proof.Machine
end

