-- ==== Sys2Proof/Machine/Operands.lean ====
section
/-! DEFINITION. From raw fields to operands and pixels: the biases, the channel arithmetic, the pixels each chunk produces
(its `Exec_kind` function, 41_chunk_step.md R160), and the cache hash. -/

namespace Sys2Proof.Machine

/-- A pixel as it crosses the output interface: one word, r in bits 31:24, g in 23:16, b in 15:8, a in 7:0 (20_memory.md
R74). -/
def Pixel.word (p : Pixel) : Word := p.r ++ p.g ++ p.b ++ p.a

/-- A pixel as four bytes of the platform's memory, in rising addresses (20_memory.md R74). -/
def Pixel.bytes (p : Pixel) : List Byte := [p.r, p.g, p.b, p.a]

/-- A signed delta: the raw field less its bias, on unbounded integers (30_encoding.md R110). -/
def unbias {w : Nat} (raw : BitVec w) (bias : Nat) : Int := (raw.toNat : Int) - (bias : Int)

/-- `wrap8(x) = x mod 256` (41_chunk_step.md R173). -/
def wrap8 (x : Int) : Byte := BitVec.ofInt 8 x

/-- One channel moved by a delta, modulo 256, with no carry into another channel (41_chunk_step.md R173). -/
def addDelta (channel : Byte) (delta : Int) : Byte := wrap8 ((channel.toNat : Int) + delta)

/-- DIFF's pixel: the three deltas added to `prev`, alpha kept (44_delta_ops.md R230). -/
def diffPixel (drRaw dgRaw dbRaw : BitVec 2) (prev : Pixel) : Pixel where
  r := addDelta prev.r (unbias drRaw 2)
  g := addDelta prev.g (unbias dgRaw 2)
  b := addDelta prev.b (unbias dbRaw 2)
  a := prev.a

/-- LUMA's pixel: the green delta on all three channels, red and blue moved by their difference from it as well
(44_delta_ops.md R231). -/
def lumaPixel (dgRaw : BitVec 6) (drdgRaw dbdgRaw : BitVec 4) (prev : Pixel) : Pixel where
  r := addDelta prev.r (unbias dgRaw 32 + unbias drdgRaw 8)
  g := addDelta prev.g (unbias dgRaw 32)
  b := addDelta prev.b (unbias dgRaw 32 + unbias dbdgRaw 8)
  a := prev.a

/-- RGB's pixel: alpha is carried over (42_literal_ops.md R190). -/
def rgbPixel (r g b : Byte) (prev : Pixel) : Pixel := ⟨r, g, b, prev.a⟩

/-- RGBA's pixel (42_literal_ops.md R191). -/
def rgbaPixel (r g b a : Byte) : Pixel := ⟨r, g, b, a⟩

/-- INDEX's pixel, copied from the cache (43_cache_ops.md R210). -/
def cachedPixel (slot : BitVec 6) (cache : Cache) : Pixel := cache[slot.toNat]'slot.isLt

/-- The run length, `run_raw + 1` (30_encoding.md R110; 90_conflicts.md C3). -/
def runLength (runRaw : BitVec 6) : Nat := runRaw.toNat + 1

/-- RUN's pixels: copies of `prev` (45_run.md R250). -/
def runPixels (runRaw : BitVec 6) (prev : Pixel) : List Pixel := List.replicate (runLength runRaw) prev

/-- The raw run values 62 and 63, which the format reserves (30_encoding.md R114). -/
def reservedRun (runRaw : BitVec 6) : Bool := runRaw == 62#6 || runRaw == 63#6

/-- The cache hash, `(3r + 5g + 7b + 11a) mod 64`, on integers wide enough not to overflow (41_chunk_step.md R170). -/
def pixelHash (p : Pixel) : BitVec 6 :=
  BitVec.ofNat 6 (3 * p.r.toNat + 5 * p.g.toNat + 7 * p.b.toNat + 11 * p.a.toNat)

/-- The cache with one slot written, the one the pixel hashes to (41_chunk_step.md R165). -/
def cacheWith (cache : Cache) (p : Pixel) : Cache := cache.set (pixelHash p).toNat p (pixelHash p).isLt

end Sys2Proof.Machine
end

