-- ==== Sys2Proof/Machine/Ops.lean ====
section
/-! DEFINITION. The shared operations: the input buffer, the output stream, raising a FormatError and beginning the next
decode, the commit of a chunk, and power-on reset. -/

namespace Sys2Proof.Machine

/-! The input buffer. -/

/-- The canonical form: addresses strictly rising, and inside the 32-bit space (20_memory.md R70). -/
abbrev Memory.wf (m : Memory) : Prop :=
  m.Pairwise (fun x y => x.1 < y.1) ∧ ∀ cell ∈ m, cell.1 < 2 ^ 32

/-- The byte at an address, none where none has been placed (log 3). -/
def Memory.read (m : Memory) (addr : Nat) : Option Byte :=
  match m with
  | [] => none
  | (a, b) :: rest => if a = addr then some b else Memory.read rest addr

/-- The buffer with one byte placed, in canonical form. -/
def Memory.write (m : Memory) (addr : Nat) (value : Byte) : Memory :=
  match m with
  | [] => [(addr, value)]
  | (a, b) :: rest =>
    if addr < a then (addr, value) :: (a, b) :: rest
    else if addr = a then (addr, value) :: rest
    else (a, b) :: Memory.write rest addr value

/-- Several bytes placed from an address upwards, those inside the 32-bit space. -/
def Memory.writeList (m : Memory) (addr : Nat) (values : List Byte) : Memory :=
  match values with
  | [] => m
  | v :: rest => Memory.writeList (if addr < 2 ^ 32 then m.write addr v else m) (addr + 1) rest

/-- `in[addr]`, defined below `IN_LEN` only (20_memory.md R70). -/
def State.readByte (s : State) (addr : Nat) : Except Fault Byte :=
  if s.inLen.toNat ≤ addr then .error (.beyondInLen addr)
  else
    match s.input.read addr with
    | some b => .ok b
    | none => .error (.neverLoaded addr)

/-- `in[addr .. addr+n-1]` in stream order (20_memory.md R70). -/
def State.readBytes (s : State) (addr : Nat) : Nat → Except Fault (List Byte)
  | 0 => .ok []
  | n + 1 =>
    match s.readByte addr with
    | .error f => .error f
    | .ok b =>
      match s.readBytes (addr + 1) n with
      | .error f => .error f
      | .ok bs => .ok (b :: bs)

/-- `rem = IN_LEN - POS` (41_chunk_step.md R160). -/
def State.remaining (s : State) : Nat := s.inLen.toNat - s.pos.toNat

/-- The bytes a chunk-boundary step looks at: from `POS` on, at most eight (20_memory.md R77; log 18). -/
def State.chunkWindow (s : State) : Except Fault (List Byte) := s.readBytes s.pos.toNat (min 8 s.remaining)

/-- The bytes the header step looks at: from offset 0 on, at most fourteen (20_memory.md R77). -/
def State.headerWindow (s : State) : Except Fault (List Byte) := s.readBytes 0 (min 14 s.inLen.toNat)

/-! Errors. -/

/-- `raise FormatError(kind)`: the code and `POS` are recorded, STATE becomes ERROR, nothing else changes (60_exceptions.md
R271, R272). -/
def State.raise (kind : FormatError) (s : State) : State :=
  { s with error := some kind, errPos := s.pos, status := .error }

/-- Decode initialisation, the only way out of DONE and ERROR but a reset (70_reset_and_hazards.md R311; 60_exceptions.md
R277). CTRL clears itself (10_state.md R36, R48); the output interface holds nothing of an earlier decode. -/
def State.startDecode (s : State) : State :=
  { s with
    prev := ⟨0, 0, 0, 255⟩
    cache := Vector.replicate 64 Pixel.zero
    pos := 0
    phase := .header
    ctrl := 0
    error := none
    errPos := 0
    hdrWidth := 0
    hdrHeight := 0
    hdrFmt := ⟨0, 0, false⟩
    chunkCount := 0
    pixCount := 0
    status := .busy
    out := { s.out with sent := 0, offer := none }
    moments := [] }

/-! The output stream. -/

/-- How many of `n` offered pixels the sink accepts now (20_memory.md R75). -/
def Sink.accepts : Sink → Nat → Nat
  | .accepting, n => n
  | .limited k, n => min k n

/-- The sink after it has accepted `n` pixels. -/
def Sink.after : Sink → Nat → Sink
  | .accepting, _ => .accepting
  | .limited k, n => .limited (k - n)

/-- The port after the last `pixels` of a chunk have all been accepted. -/
def OutPort.finish (o : OutPort) (pixels : List Pixel) : OutPort :=
  { stream := o.stream ++ pixels, sink := o.sink.after pixels.length, sent := 0, offer := none }

/-- The port after the sink has accepted the first `n` of `pixels` and no more: the next one stands on the interface. -/
def OutPort.pause (o : OutPort) (pixels : List Pixel) (n : Nat) : OutPort :=
  { stream := o.stream ++ pixels.take n, sink := o.sink.after n, sent := o.sent + n, offer := pixels[n]? }

/-! The commit. -/

/-- `Commit(P, n, k)` (41_chunk_step.md R165); the values the registers of R319 held until now are kept for later reads
(log 9). -/
def State.commit (p : Pixel) (n k : Nat) (s : State) : State :=
  { s with
    prev := p
    cache := cacheWith s.cache p
    pos := s.pos + BitVec.ofNat 32 n
    chunkCount := s.chunkCount + 1
    pixCount := s.pixCount + BitVec.ofNat 64 k
    moments := s.moment :: s.moments }

/-- The end of every chunk's step: the pixels `E` are emitted in order, and when the sink has accepted them all the chunk
commits its last pixel `p` (41_chunk_step.md R160, R165). Until then the block waits and nothing but the port changes
(20_memory.md R75). -/
def State.emitAndCommit (e : List Pixel) (p : Pixel) (n : Nat) (s : State) : State :=
  let left := e.drop s.out.sent
  let taken := s.out.sink.accepts left.length
  if taken = left.length then
    State.commit p n e.length { s with out := s.out.finish left }
  else { s with out := s.out.pause left taken }

/-! Power-on reset. -/

/-- The port after a power-on reset: a pixel that stood on the interface is delivered or not, a free choice
(93_implementation_defined.md U12; log 11); no other pixel of the abandoned decode is emitted. -/
def OutPort.powerOn (o : OutPort) (delivered : Bool) : OutPort :=
  match o.offer, delivered with
  | some p, true => { stream := o.stream ++ [p], sink := o.sink.after 1, sent := 0, offer := none }
  | _, _ => { o with sent := 0, offer := none }

/-- Power-on reset as a host action: the block's registers take their reset values; the buffer and the sink belong to the
platform and stay (70_reset_and_hazards.md R310; 10_state.md R48). -/
def State.powerOn (s : State) : State :=
  { State.reset with
    input := s.input
    out := s.out.powerOn (Config.freeDelivered s.draws)
    schedule := s.schedule
    readData := s.readData
    draws := s.draws + 1 }

end Sys2Proof.Machine
end

