-- ==== Sys2Proof/Machine/CacheRef.lean ====
section
/-! DEFINITION. The cache reference chunk, INDEX (43_cache_ops.md). -/

namespace Sys2Proof.Machine

/-- INDEX: the slot is read before the commit writes the cache (43_cache_ops.md R210; 70_reset_and_hazards.md R317). -/
def execIndex (slot : BitVec 6) (s : State) : Host.Outcome State Fault Refusal :=
  let p := cachedPixel slot s.cache
  .next (s.emitAndCommit [p] p 1)

end Sys2Proof.Machine
end

