-- ==== Sys2Proof/Machine/Delta.lean ====
section
/-! DEFINITION. The delta chunks, DIFF and LUMA (44_delta_ops.md). -/

namespace Sys2Proof.Machine

/-- DIFF (44_delta_ops.md R230). -/
def execDiff (drRaw dgRaw dbRaw : BitVec 2) (s : State) : Host.Outcome State Fault Refusal :=
  let p := diffPixel drRaw dgRaw dbRaw s.prev
  .next (s.emitAndCommit [p] p 1)

/-- LUMA (44_delta_ops.md R231). -/
def execLuma (dgRaw : BitVec 6) (drdgRaw dbdgRaw : BitVec 4) (s : State) : Host.Outcome State Fault Refusal :=
  let p := lumaPixel dgRaw drdgRaw dbdgRaw s.prev
  .next (s.emitAndCommit [p] p 2)

end Sys2Proof.Machine
end

