-- ==== Sys2Proof/Machine/Literal.lean ====
section
/-! DEFINITION. The full-colour chunks, RGB and RGBA (42_literal_ops.md). -/

namespace Sys2Proof.Machine

/-- RGB (42_literal_ops.md R190). -/
def execRgb (r g b : Byte) (s : State) : Host.Outcome State Fault Refusal :=
  let p := rgbPixel r g b s.prev
  .next (s.emitAndCommit [p] p 4)

/-- RGBA (42_literal_ops.md R191). -/
def execRgba (r g b a : Byte) (s : State) : Host.Outcome State Fault Refusal :=
  let p := rgbaPixel r g b a
  .next (s.emitAndCommit [p] p 5)

end Sys2Proof.Machine
end

