-- ==== Sys2Proof/Machine/Run.lean ====
section
/-! DEFINITION. The run chunk, RUN (45_run.md). -/

namespace Sys2Proof.Machine

/-- RUN: `prev` is emitted run-length times and committed once (45_run.md R250). The reserved raw values raise
UnknownChunkTag (41_chunk_step.md R163); no stream decodes to one (30_encoding.md R114). -/
def execRun (runRaw : BitVec 6) (s : State) : Host.Outcome State Fault Refusal :=
  if reservedRun runRaw then .next (s.raise .unknownChunkTag)
  else .next (s.emitAndCommit (runPixels runRaw s.prev) s.prev 1)

end Sys2Proof.Machine
end

