-- ==== Sys2Proof/Machine/Stream.lean ====
section
/-! DEFINITION. The two units that are not chunks: the trailer, which ends a decode, and the header, which begins one
(41_chunk_step.md R161; 40_header.md R140). -/

namespace Sys2Proof.Machine

/-- END (41_chunk_step.md R161). -/
def execTrailer (s : State) : Host.Outcome State Fault Refusal :=
  .next { s with pos := s.pos + 8, status := .done }

/-- HEADER, after its tests have passed (40_header.md R140); the values the registers of R319 held until now are kept for
later reads (log 9). -/
def execHeader (width height : Word) (channels colorspace : Byte) (s : State) : Host.Outcome State Fault Refusal :=
  .next
    { s with
      hdrWidth := width
      hdrHeight := height
      hdrFmt := ⟨channels, colorspace, true⟩
      phase := .chunks
      pos := 14
      moments := s.moment :: s.moments }

end Sys2Proof.Machine
end

