-- ==== Sys2Proof/Machine/Dispatch.lean ====
section
/-! DEFINITION. The meaning of each instruction: one arm per constructor of Instr. -/

namespace Sys2Proof.Machine

/-- The effect of one instruction; whether a step is enabled at all is tested by the step (41_chunk_step.md R160). -/
def exec (i : Instr) (s : State) : Host.Outcome State Fault Refusal :=
  match i with
  | .diff drRaw dgRaw dbRaw => Sys2Proof.Machine.execDiff drRaw dgRaw dbRaw s
  | .index slot => Sys2Proof.Machine.execIndex slot s
  | .luma dgRaw drdgRaw dbdgRaw => Sys2Proof.Machine.execLuma dgRaw drdgRaw dbdgRaw s
  | .rgb r g b => Sys2Proof.Machine.execRgb r g b s
  | .rgba r g b a => Sys2Proof.Machine.execRgba r g b a s
  | .run runRaw => Sys2Proof.Machine.execRun runRaw s
  | .trailer => Sys2Proof.Machine.execTrailer s
  | .header width height channels colorspace => Sys2Proof.Machine.execHeader width height channels colorspace s

end Sys2Proof.Machine
end

