-- ==== Sys2Proof/Machine/Block.lean ====
section
/-! DEFINITION. The block's own step: the header step and the chunk-boundary step (40_header.md R140; 41_chunk_step.md
R160). -/

namespace Sys2Proof.Machine

/-- What the decoder answered, put into effect: an instruction runs, a rejection is raised. -/
def State.runDecoded (decoded : Except FormatError Instr) (s : State) : Host.Outcome State Fault Refusal :=
  match decoded with
  | .ok i => exec i s
  | .error kind => .next (s.raise kind)

/-- The header step (40_header.md R140). -/
def headerStep (s : State) : Host.Outcome State Fault Refusal :=
  match s.headerWindow with
  | .error f => .fault f
  | .ok bytes => s.runDecoded (decodeHeader Config.signature bytes)

/-- The chunk-boundary step (41_chunk_step.md R160). -/
def chunkStep (s : State) : Host.Outcome State Fault Refusal :=
  match s.chunkWindow with
  | .error f => .fault f
  | .ok bytes => s.runDecoded (decodeChunk bytes)

/-- The block's move. A step is enabled only while BUSY (00_scope.md R12; 70_reset_and_hazards.md R310); otherwise the block
stays as it is (60_exceptions.md R277; log 8). -/
def blockStep (s : State) : Host.Outcome State Fault Refusal :=
  match s.status, s.phase with
  | .busy, .header => headerStep s
  | .busy, .chunks => chunkStep s
  | .idle, _ => .next s
  | .done, _ => .next s
  | .error, _ => .next s

end Sys2Proof.Machine
end

