-- ==== Sys2Proof/Machine/HostPort.lean ====
section
/-! DEFINITION. What the host's actions do: the register window, the input buffer, the output sink and power-on reset
(10_state.md R35 to R45; 20_memory.md R75, R80). -/

namespace Sys2Proof.Machine

/-- The accesses the register window defines: aligned, 32 bits wide, offsets 0x00 to 0xFF (10_state.md R35; log 12). -/
def definedAccess (offset bytes : Nat) : Bool := bytes == 4 && offset % 4 == 0 && decide (offset < 0x100)

/-- A defined register write (10_state.md R35, R36, R43): START while not BUSY begins a decode, `IN_LEN` is written while not
BUSY, and every other write has no effect. -/
def State.writeRegister (offset : Nat) (value : Word) (s : State) : State :=
  if offset = 0x00 then
    if value.getLsbD 0 = true ∧ s.status ≠ .busy then s.startDecode else s
  else if offset = 0x10 then
    if s.status ≠ .busy then { s with inLen := value } else s
  else s

/-- The moment a register read takes its value at: while BUSY a free choice among the values held so far in this decode,
otherwise the present (70_reset_and_hazards.md R319; 20_memory.md R78; log 9). -/
def State.readMoment (s : State) : Moment :=
  if s.status = .busy then
    (s.moment :: s.moments).getD (Config.freeMoment s.draws % (s.moments.length + 1)) s.moment
  else s.moment

/-- A defined register read; it has no effect on the block (10_state.md R35). -/
def State.readRegister (offset : Nat) (s : State) : State :=
  { s with readData := s.registerAt s.readMoment offset, draws := s.draws + 1 }

/-- The byte loads the host may not make: while BUSY, a change below `IN_LEN` (20_memory.md R80(b); log 13). -/
def State.loadForbidden (addr : Word) (value : Byte) (s : State) : Bool :=
  s.status == .busy && decide (addr.toNat < s.inLen.toNat) && s.input.read addr.toNat != some value

/-- One host action. -/
def hostAct (action : HostAction) (s : State) : Host.Outcome State Fault Refusal :=
  match action with
  | .writeReg offset bytes value =>
    if definedAccess offset bytes then .next (s.writeRegister offset value)
    else .refused (.undefinedAccess offset bytes)
  | .readReg offset bytes =>
    if definedAccess offset bytes then .next (s.readRegister offset)
    else .refused (.undefinedAccess offset bytes)
  | .load addr value =>
    if s.loadForbidden addr value then .refused (.bufferChangedWhileBusy addr.toNat)
    else .next { s with input := s.input.write addr.toNat value }
  | .setSink sink => .next { s with out := { s.out with sink := sink } }
  | .powerOn => .next s.powerOn

end Sys2Proof.Machine
end

