-- ==== Sys2Proof/Machine/Step.lean ====
section
/-! DEFINITION. One step of the machine, and a state that fetches a given word next. -/

namespace Sys2Proof.Machine

/-- One move of one agent: the head of the schedule, and the block when the schedule is empty (00_scope.md R11; log 4). -/
def step (s : State) : Host.Outcome State Fault Refusal :=
  match s.schedule with
  | [] => blockStep s
  | .block :: rest => blockStep { s with schedule := rest }
  | .host action :: rest => hostAct action { s with schedule := rest }

/-- Where the next instruction is fetched: the header at offset 0, a chunk at `POS`, or at the first chunk boundary, 14, in a
machine that has not passed its header step (70_reset_and_hazards.md R312). -/
def State.fetchAddr (s : State) (nbits : Nat) : Nat :=
  if isHeaderRow nbits then 0 else if s.phase = .chunks then s.pos.toNat else 14

/-- The state whose next step fetches and runs the instruction of a table word: its bytes stand where the block reads, inside
`IN_LEN`, and the block is BUSY, in the phase that reads such a unit, with the next move and a ready sink (log 5). -/
def State.withFetchWord (s : State) (nbits w : Nat) : State :=
  { s with
    status := .busy
    error := none
    errPos := 0
    phase := if isHeaderRow nbits then .header else .chunks
    hdrFmt := { s.hdrFmt with valid := !isHeaderRow nbits }
    pos := BitVec.ofNat 32 (s.fetchAddr nbits)
    inLen := BitVec.ofNat 32 (max s.inLen.toNat (min (s.fetchAddr nbits + longestInstr) (2 ^ 32 - 1)))
    input := s.input.writeList (s.fetchAddr nbits) (tableBytes nbits w)
    out := { s.out with sink := .accepting, sent := 0, offer := none }
    schedule := [] }

end Sys2Proof.Machine
end

