-- ==== Sys2Proof/Machine/Assembler.lean ====
section
/-! DEFINITION. The assembler syntax of 30_encoding.md R118 and R119: lines with signed deltas and run lengths, and the
instructions they stand for. An operand outside its range has no encoding and is refused. -/

namespace Sys2Proof.Machine

/-- A line of the assembler syntax (30_encoding.md R118, R119). -/
inductive AsmLine where
  | rgb (r g b : Nat)
  | rgba (r g b a : Nat)
  | index (i : Nat)
  | diff (dr dg db : Int)
  | luma (dg drdg dbdg : Int)
  | run (n : Nat)
  | header (width height channels colorspace : Nat)
  | trailer
  | repeatPrev (n : Nat)
  | copy
  deriving DecidableEq, Repr

/-- The `w`-bit raw field of an operand whose bias is `bias`, none outside its range (30_encoding.md R110, R118). -/
def rawField (w : Nat) (bias value : Int) : Option (BitVec w) :=
  if 0 ≤ value + bias ∧ value + bias < 2 ^ w then some (BitVec.ofInt w (value + bias)) else none

/-- The instruction RUN of a run length 1 to 62 (30_encoding.md R118). -/
def runOfLength (n : Nat) : Option Instr :=
  if 1 ≤ n ∧ n ≤ 62 then some (.run (BitVec.ofNat 6 (n - 1))) else none

/-- The instructions a line stands for, none where an operand is out of range (30_encoding.md R118, R119). -/
def assemble (line : AsmLine) : Option (List Instr) :=
  match line with
  | .rgb r g b => do return [.rgb (← rawField 8 0 r) (← rawField 8 0 g) (← rawField 8 0 b)]
  | .rgba r g b a => do return [.rgba (← rawField 8 0 r) (← rawField 8 0 g) (← rawField 8 0 b) (← rawField 8 0 a)]
  | .index i => do return [.index (← rawField 6 0 i)]
  | .diff dr dg db => do return [.diff (← rawField 2 2 dr) (← rawField 2 2 dg) (← rawField 2 2 db)]
  | .luma dg drdg dbdg => do return [.luma (← rawField 6 32 dg) (← rawField 4 8 drdg) (← rawField 4 8 dbdg)]
  | .run n => do return [← runOfLength n]
  | .header width height channels colorspace => do
    return [.header (← rawField 32 0 width) (← rawField 32 0 height) (← rawField 8 0 channels) (← rawField 8 0 colorspace)]
  | .trailer => some [.trailer]
  | .repeatPrev n => do
    let full ← runOfLength 62
    return List.replicate ((n - 1) / 62) full ++ [← runOfLength (n - 62 * ((n - 1) / 62))]
  | .copy => do return [← runOfLength 1]

/-- The bytes of a line (30_encoding.md R118, R119). -/
def assembleBytes (sig : Word) (line : AsmLine) : Option (List Byte) :=
  (assemble line).map fun instrs => instrs.flatMap (encode sig)

end Sys2Proof.Machine
end

