-- ==== Sys2Proof/Safety.lean ====
section
/-! DEFINITION. The terms in which claims about the machine are made: when a chunk completes and what it then leaves, when it
waits, the result of a decode, the machine's invariant, and a whole decode written as one function on a byte list. -/

namespace Sys2Proof.Machine

/-- The state with STATE = BUSY in a phase, and the block to move next (00_scope.md R12). -/
structure State.Enabled (s : State) (phase : Phase) : Prop where
  schedule : s.schedule = []
  status : s.status = .busy
  phase : s.phase = phase

/-- The sink takes `k` pixels now, and none of the current chunk has been taken before (20_memory.md R75). -/
structure State.Ready (s : State) (k : Nat) : Prop where
  sent : s.out.sent = 0
  sink : s.out.sink.accepts k = k

/-- Every byte below `IN_LEN` has been placed (70_reset_and_hazards.md R313(1)). -/
def State.Loaded (s : State) : Prop := ∀ addr < s.inLen.toNat, (s.input.read addr).isSome

/-- `bytes` stand in the buffer from `addr` on. -/
def State.Holds (s : State) (addr : Nat) (bytes : List Byte) : Prop :=
  ∀ k (h : k < bytes.length), s.input.read (addr + k) = some bytes[k]

/-- What no instruction but the header and the trailer changes: the registers a chunk does not write, the buffer, and the
host's side (60_exceptions.md R284). -/
structure SameBeside (s t : State) : Prop where
  phase : t.phase = s.phase
  ctrl : t.ctrl = s.ctrl
  status : t.status = s.status
  error : t.error = s.error
  errPos : t.errPos = s.errPos
  hdrWidth : t.hdrWidth = s.hdrWidth
  hdrHeight : t.hdrHeight = s.hdrHeight
  hdrFmt : t.hdrFmt = s.hdrFmt
  inLen : t.inLen = s.inLen
  memory : ∀ addr, t.input.read addr = s.input.read addr
  schedule : t.schedule = s.schedule
  readData : t.readData = s.readData
  draws : t.draws = s.draws

/-- From `s` to `t` a chunk of `n` bytes emitted the pixels `e` and committed `p` (41_chunk_step.md R160, R165). `SameBeside`
and the clauses here name every field of State; `sink`, `sent` and `offer` are the model's form of the interface (log 6),
`moments` is the model's own (log 9). -/
structure Committed (s t : State) (e : List Pixel) (p : Pixel) (n : Nat) : Prop where
  prev : t.prev = p
  slot : ∀ slot : BitVec 6, t.cache[slot.toNat]'slot.isLt =
    if slot.toNat = (3 * p.r.toNat + 5 * p.g.toNat + 7 * p.b.toNat + 11 * p.a.toNat) % 64 then p
    else s.cache[slot.toNat]'slot.isLt
  pos : t.pos.toNat = (s.pos.toNat + n) % 2 ^ 32
  chunkCount : t.chunkCount.toNat = (s.chunkCount.toNat + 1) % 2 ^ 32
  pixCount : t.pixCount.toNat = (s.pixCount.toNat + e.length) % 2 ^ 64
  stream : t.out.stream = s.out.stream ++ e
  sink : t.out.sink = s.out.sink.after e.length
  sent : t.out.sent = 0
  offer : t.out.offer = none
  moments : t.moments = s.moment :: s.moments
  beside : SameBeside s t

/-- From `s` to `t` a chunk that produces `e` had some of its pixels accepted and waits with the next one offered; nothing
but the port has changed (20_memory.md R75). -/
structure Waiting (s t : State) (e : List Pixel) : Prop where
  offered : t.out.offer = e[t.out.sent]? ∧ t.out.sent < e.length
  emitted : t.out.stream = s.out.stream ++ (e.drop s.out.sent).take (t.out.sent - s.out.sent)
  progress : s.out.sent ≤ t.out.sent
  sink : t.out.sink = s.out.sink.after (t.out.sent - s.out.sent)
  moments : t.moments = s.moments
  prev : t.prev = s.prev
  cache : t.cache = s.cache
  pos : t.pos = s.pos
  chunkCount : t.chunkCount = s.chunkCount
  pixCount : t.pixCount = s.pixCount
  beside : SameBeside s t

/-- The error entry: kind and `POS` recorded, STATE = ERROR, all else kept (60_exceptions.md R272). -/
def State.afterRaise (kind : FormatError) (s : State) : State :=
  { s with error := some kind, errPos := s.pos, status := .error }

/-- The pixels an instruction produces, in order; none for the trailer and the header (41_chunk_step.md R160). -/
def chunkPixels (i : Instr) (prev : Pixel) (cache : Cache) : List Pixel :=
  match i with
  | .diff drRaw dgRaw dbRaw => [diffPixel drRaw dgRaw dbRaw prev]
  | .index slot => [cachedPixel slot cache]
  | .luma dgRaw drdgRaw dbdgRaw => [lumaPixel dgRaw drdgRaw dbdgRaw prev]
  | .rgb r g b => [rgbPixel r g b prev]
  | .rgba r g b a => [rgbaPixel r g b a]
  | .run runRaw => runPixels runRaw prev
  | .trailer => []
  | .header _ _ _ _ => []

/-- `t` is reached from `s` by any number of attempts to run the chunk `i` with a sink that takes fewer pixels than are left
(20_memory.md R75; log 6). -/
inductive Paused (i : Instr) (s : State) : State → Prop where
  | start : Paused i s s
  | pause {t u : State} (k : Nat) (before : Paused i s t)
    (fewer : k < (chunkPixels i t.prev t.cache).length - t.out.sent)
    (attempt : exec i { t with out := { t.out with sink := .limited k } } = .next u) : Paused i s u

/-! The course of a decode. -/

/-- `t` is a state of a decode, from the START that began it to DONE or ERROR, in which the chunks so far have committed the
pixels `committed` and produced the pixels `produced`, oldest first (41_chunk_step.md R165, R172). A step in which
`CHUNK_COUNT` goes up is the commit of the chunk at `POS`; a power-on reset ends the decode without a result. -/
inductive InDecode : List Pixel → List Pixel → State → Prop where
  | start {s t : State} (before : s.status ≠ .busy) (begun : step s = .next t) (after : t.status = .busy) :
      InDecode [] [] t
  | commit {committed produced : List Pixel} {t u : State} {bytes : List Byte} {i : Instr} {p : Pixel}
      (sofar : InDecode committed produced t) (busy : t.status = .busy) (window : t.chunkWindow = .ok bytes)
      (decoded : decodeChunk bytes = .ok i) (last : (chunkPixels i t.prev t.cache).getLast? = some p)
      (next : step t = .next u) (counted : u.chunkCount = t.chunkCount + 1) (going : u.status = .busy) :
      InDecode (committed ++ [p]) (produced ++ chunkPixels i t.prev t.cache) u
  | other {committed produced : List Pixel} {t u : State} (sofar : InDecode committed produced t)
      (busy : t.status = .busy) (next : step t = .next u) (counted : u.chunkCount = t.chunkCount)
      (kept : u.status ≠ .idle) : InDecode committed produced u

/-- What the registers of R319 hold right after a START (70_reset_and_hazards.md R311). -/
def Moment.start : Moment := ⟨0, 0, 0, ⟨0, 0, false⟩, 0, 0⟩

/-- `later` is what those registers hold right after `earlier` in a decode: the header step or one commit lies between
(40_header.md R140; 41_chunk_step.md R165). -/
def Moment.Follows (later earlier : Moment) : Prop :=
  (earlier = Moment.start ∧ later.pos = 14 ∧ later.hdrFmt.valid = true ∧ later.chunkCount = 0 ∧ later.pixCount = 0) ∨
  (later.hdrWidth = earlier.hdrWidth ∧ later.hdrHeight = earlier.hdrHeight ∧ later.hdrFmt = earlier.hdrFmt ∧
    earlier.hdrFmt.valid = true ∧
    earlier.pos.toNat + 1 ≤ later.pos.toNat ∧ later.pos.toNat ≤ earlier.pos.toNat + 5 ∧
    later.chunkCount.toNat = earlier.chunkCount.toNat + 1 ∧
    earlier.pixCount.toNat + 1 ≤ later.pixCount.toNat ∧ later.pixCount.toNat ≤ earlier.pixCount.toNat + 62)

/-- These moments, newest first, are a decode's from its START on: each follows the one before it (log 9). -/
def OneDecode : List Moment → Prop
  | [] => False
  | [first] => first = Moment.start
  | later :: earlier :: rest => later.Follows earlier ∧ OneDecode (earlier :: rest)

/-! The result of a decode. -/

/-- The header part of a result (10_state.md R40 to R42). -/
structure Header where
  width : Word
  height : Word
  channels : Byte
  colorspace : Byte
  deriving DecidableEq, Repr

/-- The result of the last decode, none while there is none: in DONE the header and the pixels of that decode, the last
`PIX_COUNT` of the stream; in ERROR the error kind alone (00_scope.md R13; 60_exceptions.md R276; log 7). -/
def State.result (s : State) : Option (Except FormatError (Header × List Pixel)) :=
  match s.status, s.error with
  | .done, _ =>
    some (.ok (⟨s.hdrWidth, s.hdrHeight, s.hdrFmt.channels, s.hdrFmt.colorspace⟩,
      s.out.stream.drop (s.out.stream.length - s.pixCount.toNat)))
  | .error, some kind => some (.error kind)
  | .error, none => none
  | .idle, _ => none
  | .busy, _ => none

/-- The chunk loop as a function: the pixels of the chunks before the first trailer, or the first error. `fuel` bounds the
number of chunk boundaries (41_chunk_step.md R160, R167). -/
def pixelsOfStream (fuel : Nat) (bytes : List Byte) (prev : Pixel) (cache : Cache) : Except FormatError (List Pixel) :=
  match fuel with
  | 0 => .error .missingTrailer
  | fuel + 1 =>
    match decodeChunk bytes with
    | .error kind => .error kind
    | .ok .trailer => .ok []
    | .ok i =>
      let e := chunkPixels i prev cache
      let p := e.getLast?.getD prev
      match pixelsOfStream fuel (bytes.drop i.byteLength) p (cacheWith cache p) with
      | .error kind => .error kind
      | .ok later => .ok (e ++ later)

/-- A whole decode as a function of the byte stream: the source's `decode(bytes) -> (Header, Vec<Pixel>)` (00_scope.md
R13). -/
def decodeStream (sig : Word) (bytes : List Byte) : Except FormatError (Header × List Pixel) :=
  match decodeHeader sig bytes with
  | .error kind => .error kind
  | .ok (.header width height channels colorspace) =>
    match pixelsOfStream (bytes.length + 1) (bytes.drop 14) ⟨0, 0, 0, 255⟩ (Vector.replicate 64 Pixel.zero) with
    | .error kind => .error kind
    | .ok pixels => .ok (⟨width, height, channels, colorspace⟩, pixels)
  | .ok _ => .error .badSignature

/-! The invariant. -/

/-- What holds at reset and after every step of either agent. The clauses `memory`, `ctrl`, `offer` and `sent`,
`moments` are about the model's form of the buffer (log 3), of CTRL (log 16), of the output interface (log 6) and of the values
a read while BUSY may return (log 9); the others are the spec's, none of them about `prev` or the cache before a START. -/
structure Inv (s : State) : Prop where
  /-- The buffer keeps its canonical form. -/
  memory : s.input.wf
  /-- CTRL holds 0: START clears itself (10_state.md R36; log 16). -/
  ctrl : s.ctrl = 0
  /-- `HDR_FMT.VALID` is 1 exactly in PHASE = CHUNKS (10_state.md R34, R42). -/
  valid : s.hdrFmt.valid = true ↔ s.phase = .chunks
  /-- `ERROR.CODE` is nonzero exactly when STATE is ERROR (10_state.md R38). -/
  error : s.error ≠ none ↔ s.status = .error
  /-- No decode reports UnknownChunkTag (30_encoding.md R115). -/
  knownTag : s.error ≠ some .unknownChunkTag
  /-- `ERR_POS` is 0 unless an error was raised, and then it is `POS` (10_state.md R39). -/
  errPos : s.errPos = if s.status = .error then s.pos else 0
  /-- Before the header step has succeeded, `POS`, the counters and the header registers are 0 (10_state.md R48; R140), and no
  earlier values are kept (log 9). -/
  header : s.phase = .header → s.moment = Moment.start ∧ s.moments = [] ∧ s.status ≠ .done
  /-- In IDLE no decode has begun (10_state.md R37). -/
  idle : s.status = .idle → s.phase = .header
  /-- While chunks are decoded `POS` lies between the header's end and `IN_LEN` (10_state.md R33). -/
  pos : s.status = .busy → s.phase = .chunks → s.pos.toNat ≤ s.inLen.toNat
  /-- Every chunk took at least one byte after the header, so `CHUNK_COUNT` has not wrapped (10_state.md R44). -/
  chunkCount : s.phase = .chunks → 14 + s.chunkCount.toNat ≤ s.pos.toNat
  /-- Every chunk emitted 1 to 62 pixels, so `PIX_COUNT` has not wrapped (10_state.md R45). -/
  pixCount : s.chunkCount.toNat ≤ s.pixCount.toNat ∧ s.pixCount.toNat ≤ 62 * s.chunkCount.toNat
  /-- From a START on, a slot holds a pixel that hashes to it, or the zero pixel (41_chunk_step.md R172); in IDLE the cache is
  unspecified (10_state.md R48), and nothing is said. -/
  slots : s.status ≠ .idle → ∀ slot : BitVec 6, s.cache[slot.toNat]'slot.isLt = Pixel.zero ∨
    pixelHash (s.cache[slot.toNat]'slot.isLt) = slot
  /-- After any chunk, `cache[h(prev)] = prev` (41_chunk_step.md R172). -/
  prevCached : s.chunkCount ≠ 0 → s.cache[(pixelHash s.prev).toNat]'(pixelHash s.prev).isLt = s.prev
  /-- While BUSY, the values kept for reads and the present one are those of this decode, from its START on
  (70_reset_and_hazards.md R319; log 9). -/
  moments : s.status = .busy → OneDecode (s.moment :: s.moments)
  /-- A pixel is offered only by the chunk at `POS`, and it is that chunk's next one (20_memory.md R75; log 6). -/
  offer : s.out.offer ≠ none → s.status = .busy ∧ s.phase = .chunks ∧
    ∃ bytes i, s.chunkWindow = .ok bytes ∧ decodeChunk bytes = .ok i ∧
      s.out.offer = (chunkPixels i s.prev s.cache)[s.out.sent]?
  /-- Pixels of the current chunk have been sent only while it waits (log 6). -/
  sent : s.out.offer = none → s.out.sent = 0

end Sys2Proof.Machine
end

