-- ==== Sys2Proof/Certificates/Slice0/Obligations.lean ====
section
/-! DEFINITION. The statements about the machine. The rules R<n> are those of spec/; "log <n>" is notes/assumptions/<n>.md. -/

open Sys2Proof Sys2Proof.Machine

/-! Encoding. -/

/-- The source's example bytes decode to the instructions they stand for (95_test_vectors.md V2 to V6, 2.1). -/
def Obligations.SpecWordsDecode : Prop :=
  decodeChunk [0xFE, 0xA3, 0x89, 0x43] = .ok (.rgb 0xA3 0x89 0x43) ∧
  decodeChunk [0xFF, 0xA3, 0x89, 0x43, 0x44] = .ok (.rgba 0xA3 0x89 0x43 0x44) ∧
  decodeChunk [0x04] = .ok (.index 4) ∧
  decodeChunk [0x71] = .ok (.diff 3 0 1) ∧
  decodeChunk [0xC3] = .ok (.run 3) ∧
  decodeChunk [0xBF, 0xF0] = .ok (.luma 63 15 0) ∧
  decodeChunk [0, 0, 0, 0, 0, 0, 0, 1] = .ok .trailer

/-- Decoding an encoded well-formed instruction gives it back, with every operand, whatever SIGNATURE is and whatever bytes
follow; a chunk's bytes must not, with what follows, read as the trailer (R161). -/
def Obligations.DecodeOfEncodeIsTheInstruction : Prop :=
  ∀ (sig : Word) (i : Instr) (rest : List Byte), i.wf = true →
    (i.isChunk = true → (encode sig i ++ rest).take 8 ≠ trailerBytes → decodeChunk (encode sig i ++ rest) = .ok i) ∧
    (i = .trailer → decodeChunk (encode sig i ++ rest) = .ok i) ∧
    (∀ width height channels colorspace, i = .header width height channels colorspace →
      decodeHeader sig (encode sig i ++ rest) = .ok i)

/-- Whatever bytes decode to an instruction begin with that instruction's encoding, and it is well-formed. -/
def Obligations.DecodedBytesBeginWithTheEncoding : Prop :=
  ∀ (sig : Word) (bytes : List Byte) (i : Instr),
    (decodeChunk bytes = .ok i → i.wf = true ∧ encode sig i <+: bytes) ∧
    (decodeHeader sig bytes = .ok i → i.wf = true ∧ encode sig i <+: bytes)

/-- The order of outcomes at a chunk boundary, `bytes` being the input from `POS` on (R274): the trailer, then the end of the
input, then the tag, then the length `len(b0)`. -/
def Obligations.ChunkBoundaryPriority : Prop :=
  ∀ bytes : List Byte,
    (bytes.take 8 = [0, 0, 0, 0, 0, 0, 0, 1] → decodeChunk bytes = .ok .trailer) ∧
    (bytes = [] → decodeChunk bytes = .error .missingTrailer) ∧
    (∀ b0 later len, bytes = b0 :: later → bytes.take 8 ≠ [0, 0, 0, 0, 0, 0, 0, 1] →
      len = (if b0.toNat < 0x80 then 1 else if b0.toNat < 0xC0 then 2 else if b0.toNat = 0xFE then 4
        else if b0.toNat = 0xFF then 5 else 1) →
      (bytes.length < len → decodeChunk bytes = .error .truncated) ∧
      (len ≤ bytes.length → ∃ i, decodeChunk bytes = .ok i ∧ i.isChunk = true ∧ i.byteLength = len))

/-- The opcode map of `b0` with each kind's fields and length (R112). -/
def Obligations.OpcodeMap : Prop :=
  ∀ (b0 b1 b2 b3 b4 : Byte) (rest : List Byte),
    (b0.toNat < 0x40 → (b0 :: b1 :: b2 :: b3 :: b4 :: rest).take 8 ≠ [0, 0, 0, 0, 0, 0, 0, 1] →
      ∃ i, decodeChunk (b0 :: b1 :: b2 :: b3 :: b4 :: rest) = .ok i ∧ i.byteLength = 1 ∧
        ∃ slot, i = .index slot ∧ slot.toNat = b0.toNat) ∧
    (0x40 ≤ b0.toNat → b0.toNat < 0x80 →
      ∃ i, decodeChunk (b0 :: b1 :: b2 :: b3 :: b4 :: rest) = .ok i ∧ i.byteLength = 1 ∧
        ∃ dr dg db, i = .diff dr dg db ∧ b0.toNat = 0x40 + 16 * dr.toNat + 4 * dg.toNat + db.toNat) ∧
    (0x80 ≤ b0.toNat → b0.toNat < 0xC0 →
      ∃ i, decodeChunk (b0 :: b1 :: b2 :: b3 :: b4 :: rest) = .ok i ∧ i.byteLength = 2 ∧
        ∃ dg drdg dbdg, i = .luma dg drdg dbdg ∧ b0.toNat = 0x80 + dg.toNat ∧
          b1.toNat = 16 * drdg.toNat + dbdg.toNat) ∧
    (0xC0 ≤ b0.toNat → b0.toNat < 0xFE →
      ∃ i, decodeChunk (b0 :: b1 :: b2 :: b3 :: b4 :: rest) = .ok i ∧ i.byteLength = 1 ∧
        ∃ runRaw, i = .run runRaw ∧ b0.toNat = 0xC0 + runRaw.toNat) ∧
    (b0.toNat = 0xFE →
      ∃ i, decodeChunk (b0 :: b1 :: b2 :: b3 :: b4 :: rest) = .ok i ∧ i.byteLength = 4 ∧ i = .rgb b1 b2 b3) ∧
    (b0.toNat = 0xFF →
      ∃ i, decodeChunk (b0 :: b1 :: b2 :: b3 :: b4 :: rest) = .ok i ∧ i.byteLength = 5 ∧ i = .rgba b1 b2 b3 b4)

/-- The order of the header's tests (R273). -/
def Obligations.HeaderTestPriority : Prop :=
  ∀ (sig : Word) (bytes : List Byte),
    (bytes.length < 4 → decodeHeader sig bytes = .error .truncated) ∧
    (4 ≤ bytes.length → bytes.take 4 ≠ bytesOfWord sig → decodeHeader sig bytes = .error .badSignature) ∧
    (4 ≤ bytes.length → bytes.take 4 = bytesOfWord sig → bytes.length < 14 →
      decodeHeader sig bytes = .error .truncated) ∧
    (4 ≤ bytes.length → bytes.take 4 = bytesOfWord sig → 14 ≤ bytes.length → ∃ i, decodeHeader sig bytes = .ok i)

/-- No input makes the decoder answer UnknownChunkTag (30_encoding.md section 4). -/
def Obligations.NoInputHasAnUnknownTag : Prop :=
  ∀ (sig : Word) (bytes : List Byte),
    decodeChunk bytes ≠ .error .unknownChunkTag ∧ decodeHeader sig bytes ≠ .error .unknownChunkTag

/-- The assembler syntax (R118): an operand in its range gives the encoding column's bytes, one outside it gives none. -/
def Obligations.AssemblerSyntax : Prop :=
  ∀ sig : Word,
    (∀ r g b : Nat, assembleBytes sig (.rgb r g b) =
      if r ≤ 255 ∧ g ≤ 255 ∧ b ≤ 255 then some [0xFE, BitVec.ofNat 8 r, BitVec.ofNat 8 g, BitVec.ofNat 8 b] else none) ∧
    (∀ r g b a : Nat, assembleBytes sig (.rgba r g b a) =
      if r ≤ 255 ∧ g ≤ 255 ∧ b ≤ 255 ∧ a ≤ 255 then
        some [0xFF, BitVec.ofNat 8 r, BitVec.ofNat 8 g, BitVec.ofNat 8 b, BitVec.ofNat 8 a]
      else none) ∧
    (∀ i : Nat, assembleBytes sig (.index i) = if i ≤ 63 then some [BitVec.ofNat 8 i] else none) ∧
    (∀ dr dg db : Int, assembleBytes sig (.diff dr dg db) =
      if (-2 ≤ dr ∧ dr ≤ 1) ∧ (-2 ≤ dg ∧ dg ≤ 1) ∧ (-2 ≤ db ∧ db ≤ 1) then
        some [BitVec.ofInt 8 (64 + 16 * (dr + 2) + 4 * (dg + 2) + (db + 2))]
      else none) ∧
    (∀ dg drdg dbdg : Int, assembleBytes sig (.luma dg drdg dbdg) =
      if (-32 ≤ dg ∧ dg ≤ 31) ∧ (-8 ≤ drdg ∧ drdg ≤ 7) ∧ (-8 ≤ dbdg ∧ dbdg ≤ 7) then
        some [BitVec.ofInt 8 (128 + (dg + 32)), BitVec.ofInt 8 (16 * (drdg + 8) + (dbdg + 8))]
      else none) ∧
    (∀ n : Nat, assembleBytes sig (.run n) = if 1 ≤ n ∧ n ≤ 62 then some [BitVec.ofNat 8 (192 + (n - 1))] else none)

/-- The pseudo-instructions: HEADER's fourteen bytes, END's eight, COPY as RUN 1, and `REPEAT n` as runs whose lengths add up
to `n`, all of them well-formed and all but the last of the greatest length (30_encoding.md section 6). -/
def Obligations.PseudoInstructionsExpand : Prop :=
  (∀ (sig : Word) (width height channels colorspace : Nat),
    assembleBytes sig (.header width height channels colorspace) =
      if width < 2 ^ 32 ∧ height < 2 ^ 32 ∧ channels ≤ 255 ∧ colorspace ≤ 255 then
        some (bytesOfWord sig ++ bytesOfWord (BitVec.ofNat 32 width) ++ bytesOfWord (BitVec.ofNat 32 height) ++
          [BitVec.ofNat 8 channels, BitVec.ofNat 8 colorspace])
      else none) ∧
  (∀ sig : Word, assembleBytes sig .trailer = some [0, 0, 0, 0, 0, 0, 0, 1] ∧
    assembleBytes sig .copy = assembleBytes sig (.run 1)) ∧
  (assemble (.repeatPrev 0) = none) ∧
  ∀ n : Nat, 1 ≤ n → ∃ raws : List (BitVec 6), assemble (.repeatPrev n) = some (raws.map Instr.run) ∧
    (∀ raw ∈ raws, (Instr.run raw).wf = true) ∧ (∀ raw ∈ raws.dropLast, raw = 61) ∧
    (raws.map fun raw => raw.toNat + 1).sum = n

/-! Arithmetic. -/

/-- The cache hash, the bound of its sum, and the narrower adders that give the same slot (R170, R171). -/
def Obligations.HashOfAPixel : Prop :=
  ∀ (p : Pixel),
    (pixelHash p).toNat = (3 * p.r.toNat + 5 * p.g.toNat + 7 * p.b.toNat + 11 * p.a.toNat) % 64 ∧
    3 * p.r.toNat + 5 * p.g.toNat + 7 * p.b.toNat + 11 * p.a.toNat ≤ 6630 ∧
    (∀ n, 6 ≤ n →
      (pixelHash p).toNat = (3 * p.r.toNat + 5 * p.g.toNat + 7 * p.b.toNat + 11 * p.a.toNat) % 2 ^ n % 64) ∧
    pixelHash p = 3 * p.r.setWidth 6 + 5 * p.g.setWidth 6 + 7 * p.b.setWidth 6 + 11 * p.a.setWidth 6

/-- A channel moved by a delta is the integer sum modulo 256, which is the 8-bit addition with the carry out discarded; each
channel of a delta chunk's pixel is made of that channel alone (R173). -/
def Obligations.ChannelsWrapModulo256 : Prop :=
  (∀ (c : Byte) (delta : Int),
    ((addDelta c delta).toNat : Int) = ((c.toNat : Int) + delta) % 256 ∧
    addDelta c delta = c + BitVec.ofInt 8 delta) ∧
  (∀ (dr dg db : BitVec 2) (p : Pixel),
    diffPixel dr dg db p = ⟨addDelta p.r (dr.toNat - 2), addDelta p.g (dg.toNat - 2), addDelta p.b (db.toNat - 2), p.a⟩) ∧
  (∀ (dg : BitVec 6) (drdg dbdg : BitVec 4) (p : Pixel),
    lumaPixel dg drdg dbdg p =
      ⟨addDelta p.r (dg.toNat - 32 + (drdg.toNat - 8)), addDelta p.g (dg.toNat - 32),
        addDelta p.b (dg.toNat - 32 + (dbdg.toNat - 8)), p.a⟩)

/-- DIFF and LUMA as four-lane packed additions: each of r, g, b adds its lane constant modulo 256, alpha passes through
(R232). -/
def Obligations.DeltaChunksAreLaneAdditions : Prop :=
  (∀ (dr dg db : BitVec 2) (p : Pixel),
    diffPixel dr dg db p =
      ⟨p.r + (dr.setWidth 8 - 2), p.g + (dg.setWidth 8 - 2), p.b + (db.setWidth 8 - 2), p.a⟩) ∧
  (∀ (dg : BitVec 6) (drdg dbdg : BitVec 4) (p : Pixel),
    lumaPixel dg drdg dbdg p =
      ⟨p.r + ((dg.setWidth 8 - 32) + (drdg.setWidth 8 - 8)), p.g + (dg.setWidth 8 - 32),
        p.b + ((dg.setWidth 8 - 32) + (dbdg.setWidth 8 - 8)), p.a⟩)

/-- A pixel's word on the output interface and its bytes in memory (20_memory.md section 1). -/
def Obligations.PixelLayout : Prop :=
  ∀ p : Pixel,
    p.word.toNat = ((p.r.toNat * 256 + p.g.toNat) * 256 + p.b.toNat) * 256 + p.a.toNat ∧
    p.bytes = bytesOfWord p.word

/-! What each instruction does. `Committed` names every field, the model's own among them (logs 6 and 9), so it says the frame
as well. -/

/-- DIFF (R230): its byte, whatever follows, decodes to it (it cannot be truncated); it emits and commits one pixel, `prev`
with each colour channel moved by its raw field less 2, modulo 256, and alpha kept. -/
def Obligations.DiffEffect : Prop :=
  ∀ dr dg db : BitVec 2,
    (∀ rest, decodeChunk (BitVec.ofNat 8 (64 + 16 * dr.toNat + 4 * dg.toNat + db.toNat) :: rest) =
      .ok (.diff dr dg db)) ∧
    ∀ s : State, s.Ready 1 → ∃ t, exec (.diff dr dg db) s = .next t ∧ Committed s t [t.prev] t.prev 1 ∧
      (t.prev.r.toNat : Int) = ((s.prev.r.toNat : Int) + ((dr.toNat : Int) - 2)) % 256 ∧
      (t.prev.g.toNat : Int) = ((s.prev.g.toNat : Int) + ((dg.toNat : Int) - 2)) % 256 ∧
      (t.prev.b.toNat : Int) = ((s.prev.b.toNat : Int) + ((db.toNat : Int) - 2)) % 256 ∧
      t.prev.a = s.prev.a

/-- LUMA (R231): its two bytes decode to it, its first byte alone is truncated; green moves by the raw field less 32, red and
blue by that and their own raw field less 8, modulo 256, and alpha is kept. -/
def Obligations.LumaEffect : Prop :=
  ∀ (dg : BitVec 6) (drdg dbdg : BitVec 4),
    (∀ rest, decodeChunk (BitVec.ofNat 8 (128 + dg.toNat) :: BitVec.ofNat 8 (16 * drdg.toNat + dbdg.toNat) :: rest) =
      .ok (.luma dg drdg dbdg)) ∧
    decodeChunk [BitVec.ofNat 8 (128 + dg.toNat)] = .error .truncated ∧
    ∀ s : State, s.Ready 1 → ∃ t, exec (.luma dg drdg dbdg) s = .next t ∧ Committed s t [t.prev] t.prev 2 ∧
      (t.prev.r.toNat : Int) =
        ((s.prev.r.toNat : Int) + ((dg.toNat : Int) - 32) + ((drdg.toNat : Int) - 8)) % 256 ∧
      (t.prev.g.toNat : Int) = ((s.prev.g.toNat : Int) + ((dg.toNat : Int) - 32)) % 256 ∧
      (t.prev.b.toNat : Int) =
        ((s.prev.b.toNat : Int) + ((dg.toNat : Int) - 32) + ((dbdg.toNat : Int) - 8)) % 256 ∧
      t.prev.a = s.prev.a

/-- RGB (R190): four bytes from `0xFE`, fewer are truncated; it emits and commits the three literals with `prev`'s alpha. -/
def Obligations.RgbEffect : Prop :=
  ∀ r g b : Byte,
    (∀ rest, decodeChunk (0xFE :: r :: g :: b :: rest) = .ok (.rgb r g b)) ∧
    (∀ later : List Byte, later.length < 3 → decodeChunk (0xFE :: later) = .error .truncated) ∧
    ∀ s : State, s.Ready 1 → ∃ t, exec (.rgb r g b) s = .next t ∧
      Committed s t [⟨r, g, b, s.prev.a⟩] ⟨r, g, b, s.prev.a⟩ 4

/-- RGBA: five bytes from `0xFF` (R106), fewer are truncated; it emits and commits the four literals (42_literal_ops.md, whose
word that RGBA alone can change alpha is log 20). -/
def Obligations.RgbaEffect : Prop :=
  ∀ r g b a : Byte,
    (∀ rest, decodeChunk (0xFF :: r :: g :: b :: a :: rest) = .ok (.rgba r g b a)) ∧
    (∀ later : List Byte, later.length < 4 → decodeChunk (0xFF :: later) = .error .truncated) ∧
    ∀ s : State, s.Ready 1 → ∃ t, exec (.rgba r g b a) s = .next t ∧
      Committed s t [⟨r, g, b, a⟩] ⟨r, g, b, a⟩ 5

/-- INDEX (R210): its byte decodes to it unless it begins the trailer; it emits and commits the slot's pixel as it was before
the commit. A zero slot makes the commit write slot 0; a slot that holds a pixel hashing to it leaves the cache as it was;
at the start of a decode INDEX 53 emits the zero pixel although `h(prev)` is 53. -/
def Obligations.IndexEffect : Prop :=
  ∀ slot : BitVec 6,
    (∀ rest, (BitVec.ofNat 8 slot.toNat :: rest).take 8 ≠ [0, 0, 0, 0, 0, 0, 0, 1] →
      decodeChunk (BitVec.ofNat 8 slot.toNat :: rest) = .ok (.index slot)) ∧
    ∀ s : State, s.Ready 1 → ∃ t, exec (.index slot) s = .next t ∧
      Committed s t [s.cache[slot.toNat]'slot.isLt] (s.cache[slot.toNat]'slot.isLt) 1 ∧
      (s.cache[slot.toNat]'slot.isLt = ⟨0, 0, 0, 0⟩ → t.cache[0] = ⟨0, 0, 0, 0⟩ ∧ t.prev.a = 0) ∧
      (pixelHash (s.cache[slot.toNat]'slot.isLt) = slot → t.cache = s.cache) ∧
      (slot = pixelHash s.prev → s.cache[slot.toNat]'slot.isLt = s.prev →
        t.out.stream = s.out.stream ++ [s.prev] ∧ t.prev = s.prev) ∧
      (s.prev = ⟨0, 0, 0, 255⟩ → s.cache = Vector.replicate 64 ⟨0, 0, 0, 0⟩ → slot = 53 →
        pixelHash s.prev = 53 ∧ t.out.stream = s.out.stream ++ [⟨0, 0, 0, 0⟩])

/-- RUN (R250): `run_raw` 0 to 61 decodes from one byte and emits `prev` `run_raw + 1` times, with one commit of `prev`, also
as the first chunk of a decode, where it writes slot 53; the bytes of the raw values 62 and 63 never decode to a run. -/
def Obligations.RunEffect : Prop :=
  (∀ runRaw : BitVec 6, runRaw.toNat < 62 →
    (∀ rest, decodeChunk (BitVec.ofNat 8 (192 + runRaw.toNat) :: rest) = .ok (.run runRaw)) ∧
    ∀ s : State, s.Ready (runRaw.toNat + 1) → ∃ t, exec (.run runRaw) s = .next t ∧
      Committed s t (List.replicate (runRaw.toNat + 1) s.prev) s.prev 1 ∧
      (s.prev = ⟨0, 0, 0, 255⟩ → t.cache[53] = ⟨0, 0, 0, 255⟩) ∧
      (s.cache[(pixelHash s.prev).toNat]'(pixelHash s.prev).isLt = s.prev → t.cache = s.cache)) ∧
  (∀ (b0 : Byte) (rest : List Byte) (runRaw : BitVec 6), 254 ≤ b0.toNat → decodeChunk (b0 :: rest) ≠ .ok (.run runRaw))

/-- A RUN instruction with a reserved raw value raises UnknownChunkTag (41_chunk_step.md section 1, the rule of Classify). -/
def Obligations.ReservedRunRaises : Prop :=
  ∀ (runRaw : BitVec 6) (s : State), 62 ≤ runRaw.toNat →
    exec (.run runRaw) s = .next (s.afterRaise .unknownChunkTag)

/-- END (R161): the decoder answers it exactly when eight bytes are there and are the trailer, whatever follows; it advances
`POS` by 8, sets STATE = DONE and changes nothing else. -/
def Obligations.TrailerEffect : Prop :=
  (∀ bytes : List Byte, decodeChunk bytes = .ok .trailer ↔
    8 ≤ bytes.length ∧ bytes.take 8 = [0, 0, 0, 0, 0, 0, 0, 1]) ∧
  ∀ s : State, exec .trailer s = .next { s with pos := s.pos + 8, status := .done }

/-- HEADER as an instruction: the header registers, PHASE and `POS` are written, and the model keeps the earlier values of
the registers of R319 (its own field, log 9); nothing else changes (40_header.md). -/
def Obligations.HeaderEffect : Prop :=
  ∀ (width height : Word) (channels colorspace : Byte) (s : State),
    exec (.header width height channels colorspace) s = .next
      { s with
        hdrWidth := width
        hdrHeight := height
        hdrFmt := ⟨channels, colorspace, true⟩
        phase := .chunks
        pos := 14
        moments := s.moment :: s.moments }

/-- The header step (R140), for every `IN_LEN` and every content of the placed buffer: the three tests in order, then the
registers. `bytes` are the buffer's bytes `in[0 .. IN_LEN-1]`. -/
def Obligations.HeaderStep : Prop :=
  ∀ (s : State) (bytes : List Byte), s.Enabled .header → s.pos = 0 → bytes.length = s.inLen.toNat → s.Holds 0 bytes →
    (s.inLen.toNat < 4 → step s = .next { s with error := some .truncated, errPos := 0, status := .error }) ∧
    (4 ≤ s.inLen.toNat → bytes.take 4 ≠ bytesOfWord Config.signature →
      step s = .next { s with error := some .badSignature, errPos := 0, status := .error }) ∧
    (4 ≤ s.inLen.toNat → bytes.take 4 = bytesOfWord Config.signature → s.inLen.toNat < 14 →
      step s = .next { s with error := some .truncated, errPos := 0, status := .error }) ∧
    (∀ w0 w1 w2 w3 h0 h1 h2 h3 channels colorspace rest,
      bytes = bytesOfWord Config.signature ++
        w0 :: w1 :: w2 :: w3 :: h0 :: h1 :: h2 :: h3 :: channels :: colorspace :: rest →
      ∃ t, step s = .next t ∧
        t.hdrWidth.toNat = ((w0.toNat * 256 + w1.toNat) * 256 + w2.toNat) * 256 + w3.toNat ∧
        t.hdrHeight.toNat = ((h0.toNat * 256 + h1.toNat) * 256 + h2.toNat) * 256 + h3.toNat ∧
        t.hdrFmt = ⟨channels, colorspace, true⟩ ∧ t.phase = .chunks ∧ t.pos = 14 ∧ t.status = .busy ∧
        t.prev = s.prev ∧ t.cache = s.cache ∧ t.chunkCount = s.chunkCount ∧ t.pixCount = s.pixCount ∧
        t.out = s.out ∧ t.input = s.input ∧ t.inLen = s.inLen ∧ t.error = s.error ∧ t.errPos = s.errPos ∧
        t.ctrl = s.ctrl)

/-- Every chunk's step ends with one commit of its last pixel, its length and its number of pixels (R165). -/
def Obligations.EveryChunkCommitsOnce : Prop :=
  ∀ (i : Instr) (s : State), i.isChunk = true → i.wf = true → s.Ready (chunkPixels i s.prev s.cache).length →
    ∃ t p, exec i s = .next t ∧ (chunkPixels i s.prev s.cache).getLast? = some p ∧
      Committed s t (chunkPixels i s.prev s.cache) p i.byteLength

/-- The frame of every chunk, completed or waiting: status, errors, header registers, `IN_LEN`, every byte of the buffer and
the host's side keep their values; at most the slot of the new `prev` changes, and what has been emitted stays emitted
(41_chunk_step.md section 1; 60_exceptions.md section 4). -/
def Obligations.ChunkFrame : Prop :=
  ∀ (i : Instr) (s t : State), i.isChunk = true → i.wf = true → exec i s = .next t →
    SameBeside s t ∧ s.out.stream <+: t.out.stream ∧
    ∀ slot : BitVec 6, slot ≠ pixelHash t.prev → t.cache[slot.toNat]'slot.isLt = s.cache[slot.toNat]'slot.isLt

/-- A chunk whose pixels the sink does not all accept waits: the accepted ones are in the stream, the next one is offered, and
nothing else changes (20_memory.md section 1; how the sink is modelled is log 6). -/
def Obligations.BlockedChunkWaits : Prop :=
  ∀ (i : Instr) (s : State), i.isChunk = true → i.wf = true →
    s.out.sink.accepts ((chunkPixels i s.prev s.cache).length - s.out.sent) <
      (chunkPixels i s.prev s.cache).length - s.out.sent →
    ∃ t, exec i s = .next t ∧ Waiting s t (chunkPixels i s.prev s.cache) ∧
      t.out.sent = s.out.sent + s.out.sink.accepts ((chunkPixels i s.prev s.cache).length - s.out.sent)

/-- However the sink paused a chunk, once it accepts again the chunk ends in the state it would have reached with a sink that
always accepts (20_memory.md section 1, 41_chunk_step.md section 1; log 6). -/
def Obligations.PausedChunkEndsTheSame : Prop :=
  ∀ (i : Instr) (s t u : State), i.isChunk = true → i.wf = true → s.out.sent = 0 → Paused i s t →
    exec i { t with out := { t.out with sink := .accepting } } = .next u →
    exec i { s with out := { s.out with sink := .accepting } } = .next u

/-- An INDEX right after a chunk, reading the slot that chunk committed to, sees its pixel (R316). -/
def Obligations.IndexSeesThePreviousCommit : Prop :=
  ∀ (i : Instr) (s t : State), i.isChunk = true → i.wf = true → s.Ready (chunkPixels i s.prev s.cache).length →
    exec i s = .next t → t.Ready 1 →
    ∃ u, exec (.index (pixelHash t.prev)) t = .next u ∧ (chunkPixels i s.prev s.cache).getLast? = some t.prev ∧
      u.out.stream = t.out.stream ++ [t.prev] ∧ u.prev = t.prev ∧ u.cache = t.cache

/-- RUN 1, DIFF 0,0,0 and LUMA 0,0,0 have the same effect but for `POS`; so has INDEX h(prev) wherever `cache[h(prev)]` is
`prev`, but not at the start of a decode (R251). -/
def Obligations.EquivalentChunks : Prop :=
  ∀ s : State, s.Ready 1 →
    ∃ t, exec (.run 0) s = .next t ∧ t.out.stream = s.out.stream ++ [s.prev] ∧ t.prev = s.prev ∧
      exec (.diff 2 2 2) s = .next t ∧
      exec (.luma 32 8 8) s = .next { t with pos := t.pos + 1 } ∧
      (s.cache[(pixelHash s.prev).toNat]'(pixelHash s.prev).isLt = s.prev → exec (.index (pixelHash s.prev)) s = .next t) ∧
      (s.prev = ⟨0, 0, 0, 255⟩ → s.cache = Vector.replicate 64 ⟨0, 0, 0, 0⟩ →
        ∃ u, exec (.index (pixelHash s.prev)) s = .next u ∧ u.out.stream = s.out.stream ++ [⟨0, 0, 0, 0⟩])

/-- Alpha: RGB, DIFF, LUMA and RUN keep `prev.a` and emit pixels of that alpha only; INDEX copies the slot's alpha and RGBA
sets the stream's (42_literal_ops.md; why INDEX is named is log 20). -/
def Obligations.AlphaOfEveryChunk : Prop :=
  ∀ (i : Instr) (s : State), i.isChunk = true → i.wf = true → s.Ready (chunkPixels i s.prev s.cache).length →
    ∃ t e, exec i s = .next t ∧ t.out.stream = s.out.stream ++ e ∧ (∀ p ∈ e, p.a = t.prev.a) ∧
      ((∀ slot, i ≠ .index slot) → (∀ r g b a, i ≠ .rgba r g b a) → t.prev.a = s.prev.a) ∧
      (∀ slot, i = .index slot → t.prev.a = (s.cache[slot.toNat]'slot.isLt).a) ∧
      (∀ r g b a, i = .rgba r g b a → t.prev.a = a)

/-! The block's step. -/

/-- A chunk-boundary step runs the instruction that the bytes at `POS` decode to (of at most eight, those below `IN_LEN`). -/
def Obligations.StepRunsTheDecodedChunk : Prop :=
  ∀ (s : State) (bytes : List Byte) (i : Instr), s.Enabled .chunks →
    bytes.length = min 8 (s.inLen.toNat - s.pos.toNat) → s.Holds s.pos.toNat bytes → decodeChunk bytes = .ok i →
    step s = exec i s

/-- A header step runs the header that the bytes at offset 0 decode to (of at most fourteen, those below `IN_LEN`). -/
def Obligations.StepRunsTheDecodedHeader : Prop :=
  ∀ (s : State) (bytes : List Byte) (i : Instr), s.Enabled .header →
    bytes.length = min 14 s.inLen.toNat → s.Holds 0 bytes → decodeHeader Config.signature bytes = .ok i →
    step s = exec i s

/-- A step whose bytes the decoder rejects enters the error state: CODE, `ERR_POS` and STATE are written, nothing else
changes, and no later step of the block changes anything (R272, with the codes of R270). -/
def Obligations.ErrorEntry : Prop :=
  (∀ (s : State) (bytes : List Byte) (kind : FormatError), s.Enabled .chunks →
    bytes.length = min 8 (s.inLen.toNat - s.pos.toNat) → s.Holds s.pos.toNat bytes → decodeChunk bytes = .error kind →
    ∃ t, step s = .next t ∧ t = { s with error := some kind, errPos := s.pos, status := .error } ∧
      ∀ u, step t = .next u → u = t) ∧
  (∀ (s : State) (bytes : List Byte) (kind : FormatError), s.Enabled .header →
    bytes.length = min 14 s.inLen.toNat → s.Holds 0 bytes → decodeHeader Config.signature bytes = .error kind →
    ∃ t, step s = .next t ∧ t = { s with error := some kind, errPos := s.pos, status := .error } ∧
      ∀ u, step t = .next u → u = t) ∧
  errorWord (some .badSignature) = 1 ∧ errorWord (some .truncated) = 2 ∧ errorWord (some .unknownChunkTag) = 3 ∧
  errorWord (some .missingTrailer) = 4 ∧ errorWord none = 0

/-- In IDLE, DONE and ERROR a move of the block changes nothing (00_scope.md section 5; answering the same state and not a stop
is the model's reading, log 8). -/
def Obligations.EndedBlockStays : Prop :=
  ∀ (s : State) (rest : List Move), s.status ≠ .busy →
    (s.schedule = [] → step s = .next s) ∧
    (s.schedule = .block :: rest → step s = .next { s with schedule := rest })

/-- A chunk-boundary step on a placed buffer with an accepting sink ends the decode or brings `POS` closer to `IN_LEN`, past
which it never goes (41_chunk_step.md section 1). -/
def Obligations.ChunkStepMakesProgress : Prop :=
  ∀ s : State, s.Enabled .chunks → s.Loaded → s.out.sink = .accepting → s.pos.toNat ≤ s.inLen.toNat →
    ∃ t, step s = .next t ∧ t.inLen = s.inLen ∧ t.pos.toNat ≤ t.inLen.toNat ∧
      (t.status = .done ∨ t.status = .error ∨ (t.Enabled .chunks ∧ s.pos.toNat < t.pos.toNat))

/-- A decode on a placed buffer with an accepting sink ends in DONE or ERROR within one header step and
`IN_LEN - 14 + 1` chunk-boundary steps (41_chunk_step.md section 1). -/
def Obligations.EveryDecodeEnds : Prop :=
  ∀ s : State, s.Enabled .header → s.pos = 0 → s.Loaded → s.out.sink = .accepting →
    ∃ k t, k ≤ 1 + (s.inLen.toNat - 14 + 1) ∧ core.run k s = .next t ∧ (t.status = .done ∨ t.status = .error)

/-- The machine computes the decode: from START's values, on a placed buffer with an accepting sink, it ends with the result
that `decodeStream`, a plain recursion on the byte list, gives (00_scope.md section 5; what the result reads from the stream
is log 7). -/
def Obligations.MachineComputesTheDecode : Prop :=
  ∀ (s : State) (bytes : List Byte), s.schedule = [] → bytes.length = s.inLen.toNat → s.Holds 0 bytes →
    s.out.sink = .accepting →
    ∃ k t, core.run k s.startDecode = .next t ∧ t.result = some (decodeStream Config.signature bytes)

/-- No step reads the buffer at or beyond `IN_LEN` (20_memory.md section 1). -/
def Obligations.NoReadAtOrBeyondInLen : Prop :=
  ∀ (s : State) (addr : Nat), step s ≠ .fault (.beyondInLen addr)

/-- On a placed buffer the block's move always answers a next state (30_encoding.md section 5; a byte that nobody has placed
stops the model, log 3). -/
def Obligations.BlockNeverStopsOnAPlacedBuffer : Prop :=
  ∀ s : State, s.schedule = [] → s.Loaded → ∃ t, step s = .next t

/-- A chunk-boundary step depends on no byte of the buffer but the eight from `POS` on that lie below `IN_LEN`
(20_memory.md sections 1 and 2). -/
def Obligations.StepReadsEightBytes : Prop :=
  ∀ (s t : State) (m : Memory), s.Enabled .chunks →
    (∀ k < 8, s.pos.toNat + k < s.inLen.toNat → m.read (s.pos.toNat + k) = s.input.read (s.pos.toNat + k)) →
    step s = .next t → step { s with input := m } = .next { t with input := m }

/-- The header's fields have no effect on decoding: with other values in the header registers a chunk-boundary step does the
same to everything else (R141). -/
def Obligations.HeaderFieldsDoNotAffectDecoding : Prop :=
  ∀ (s t : State) (width height : Word) (fmt : HdrFmt), s.Enabled .chunks → step s = .next t →
    ∃ u, step { s with hdrWidth := width, hdrHeight := height, hdrFmt := fmt } = .next u ∧
      u.out = t.out ∧ u.prev = t.prev ∧ u.cache = t.cache ∧ u.pos = t.pos ∧ u.phase = t.phase ∧
      u.status = t.status ∧ u.error = t.error ∧ u.errPos = t.errPos ∧ u.chunkCount = t.chunkCount ∧
      u.pixCount = t.pixCount ∧ u.inLen = t.inLen ∧ u.input = t.input

/-- What the registers of R319 held before a chunk or the header changed them is kept for later reads (the model's own field,
log 9). -/
def Obligations.EarlierRegisterValuesAreKept : Prop :=
  ∀ (i : Instr) (s t : State), i ≠ .trailer → exec i s = .next t →
    (t.moment = s.moment ∧ t.moments = s.moments) ∨ t.moments = s.moment :: s.moments

/-- STATE changes only as 10_state.md says: to BUSY by a START, to DONE by a trailer, to ERROR with an error recorded, to IDLE
by a power-on reset (10_state.md section 3). -/
def Obligations.StateChangesOnlyAsTheRulesSay : Prop :=
  ∀ s t : State, step s = .next t →
    t.status = s.status ∨
    (s.status ≠ .busy ∧ t.status = .busy ∧
      ∃ value rest, s.schedule = .host (.writeReg 0 4 value) :: rest ∧ value.getLsbD 0 = true) ∨
    (s.status = .busy ∧ t.status = .done ∧
      ∃ bytes, s.chunkWindow = .ok bytes ∧ decodeChunk bytes = .ok .trailer) ∨
    (s.status = .busy ∧ t.status = .error ∧ t.error ≠ none ∧ t.errPos = s.pos) ∨
    (t.status = .idle ∧ ∃ rest, s.schedule = .host .powerOn :: rest)

/-! The host's actions. -/

/-- The values after power-on reset (10_state.md section 5). For `prev` and the cache, which the spec leaves unspecified, the
zero pixel is the model's choice (log 2), and so are the fields of the model's own (logs 4, 6, 9, 10); nothing is said of them.
That nothing has been placed in the buffer or emitted is no register's value and no rule of the spec: it is the model's initial
state (logs 3, 5 and 7). -/
def Obligations.ResetValues : Prop :=
  State.reset.pos = 0 ∧ State.reset.phase = .header ∧ State.reset.ctrl = 0 ∧ State.reset.status = .idle ∧
  State.reset.error = none ∧ State.reset.errPos = 0 ∧ State.reset.hdrWidth = 0 ∧ State.reset.hdrHeight = 0 ∧
  State.reset.hdrFmt.word = 0 ∧ State.reset.inLen = 0 ∧ State.reset.chunkCount = 0 ∧ State.reset.pixCount = 0 ∧
  State.reset.input = [] ∧ State.reset.out.stream = []

/-- Power-on reset at any moment (R310): every register the spec gives a value takes it, the decode is abandoned, nothing
more is emitted for it, but that the one pixel on the interface may still be delivered, and its result is lost; no step of the
block changes anything then; and nothing but a reset stops a decode without DONE or ERROR. -/
def Obligations.PowerOnReset : Prop :=
  (∀ (s : State) (rest : List Move), s.schedule = .host .powerOn :: rest →
    ∃ t, step s = .next t ∧ t.status = .idle ∧ t.phase = .header ∧ t.pos = 0 ∧ t.ctrl = 0 ∧ t.error = none ∧
      t.errPos = 0 ∧ t.hdrWidth = 0 ∧ t.hdrHeight = 0 ∧ t.hdrFmt = ⟨0, 0, false⟩ ∧ t.inLen = 0 ∧
      t.chunkCount = 0 ∧ t.pixCount = 0 ∧ t.out.offer = none ∧
      (t.out.stream = s.out.stream ∨ ∃ p, s.out.offer = some p ∧ t.out.stream = s.out.stream ++ [p]) ∧
      t.result = none ∧ ∀ u, step { t with schedule := [] } = .next u → u = { t with schedule := [] }) ∧
  ∀ s t : State, s.status = .busy → step s = .next t →
    t.status = .busy ∨ t.status = .done ∨ t.status = .error ∨ ∃ rest, s.schedule = .host .powerOn :: rest

/-- What a power-on reset leaves to the platform: the buffer, the moves to come and the word last read stay; the sink stays,
or has taken the one pixel that was offered (the model's reading, logs 11 and 19). -/
def Obligations.PowerOnLeavesThePlatform : Prop :=
  ∀ (s : State) (rest : List Move), s.schedule = .host .powerOn :: rest →
    ∃ t, step s = .next t ∧ (∀ addr, t.input.read addr = s.input.read addr) ∧ t.schedule = rest ∧
      t.readData = s.readData ∧ t.moments = [] ∧ t.out.sent = 0 ∧
      ((t.out.stream = s.out.stream ∧ t.out.sink = s.out.sink) ∨
        ∃ p, s.out.offer = some p ∧ t.out.stream = s.out.stream ++ [p] ∧ t.out.sink = s.out.sink.after 1)

/-- A START while not BUSY is the decode initialisation, as one action (R311); `IN_LEN` and the input buffer stay. -/
def Obligations.StartInitialisesTheDecode : Prop :=
  ∀ (s : State) (value : Word) (rest : List Move), s.schedule = .host (.writeReg 0x00 4 value) :: rest →
    value.getLsbD 0 = true → s.status ≠ .busy →
    ∃ t, step s = .next t ∧ t.prev = ⟨0, 0, 0, 255⟩ ∧ (∀ slot (h : slot < 64), t.cache[slot] = ⟨0, 0, 0, 0⟩) ∧
      t.pos = 0 ∧ t.phase = .header ∧ t.error = none ∧ t.errPos = 0 ∧ t.hdrWidth = 0 ∧ t.hdrHeight = 0 ∧
      t.hdrFmt = ⟨0, 0, false⟩ ∧ t.chunkCount = 0 ∧ t.pixCount = 0 ∧ t.status = .busy ∧
      t.inLen = s.inLen ∧ ∀ addr, t.input.read addr = s.input.read addr

/-- What a START leaves beside that: the stream and the sink stay, CTRL has cleared itself, and what the model keeps of an
earlier decode (`sent`, `offer`, `moments`) is dropped (the model's own fields; logs 4, 6, 7, 9, 10, 16). -/
def Obligations.StartLeavesTheOutput : Prop :=
  ∀ (s : State) (value : Word) (rest : List Move), s.schedule = .host (.writeReg 0x00 4 value) :: rest →
    value.getLsbD 0 = true → s.status ≠ .busy →
    ∃ t, step s = .next t ∧ t.out = ⟨s.out.stream, s.out.sink, 0, none⟩ ∧ t.ctrl = 0 ∧ t.schedule = rest ∧
      t.readData = s.readData ∧ t.moments = [] ∧ t.draws = s.draws

/-- CTRL (R36): START while not BUSY runs the decode initialisation and clears itself; START while BUSY has no effect, nor has
writing 0; the other bits are ignored; CTRL reads 0; while BUSY no register write ends the decode, only a power-on reset. -/
def Obligations.ControlRegister : Prop :=
  State.reset.ctrl = 0 ∧ ∀ (s : State) (value : Word) (rest : List Move),
    (s.schedule = .host (.writeReg 0x00 4 value) :: rest → value.getLsbD 0 = true → s.status ≠ .busy →
      ∃ t, step s = .next t ∧ t = ({ s with schedule := rest } : State).startDecode ∧ t.status = .busy ∧ t.ctrl = 0) ∧
    (s.schedule = .host (.writeReg 0x00 4 value) :: rest → s.status = .busy →
      step s = .next { s with schedule := rest }) ∧
    (s.schedule = .host (.writeReg 0x00 4 value) :: rest → value.getLsbD 0 = false →
      step s = .next { s with schedule := rest }) ∧
    (∀ other : Word, other.getLsbD 0 = value.getLsbD 0 → s.schedule = .host (.writeReg 0x00 4 value) :: rest →
      step s = step { s with schedule := .host (.writeReg 0x00 4 other) :: rest }) ∧
    (s.schedule = .host (.readReg 0x00 4) :: rest → ∃ t, step s = .next t ∧ t.readData = 0) ∧
    (∀ offset t, s.schedule = .host (.writeReg offset 4 value) :: rest → s.status = .busy → step s = .next t →
      t = { s with schedule := rest }) ∧
    (∀ t, s.status = .busy → step s = .next t →
      t.status = .busy ∨ t.status = .done ∨ t.status = .error ∨ ∃ later, s.schedule = .host .powerOn :: later)

/-- `IN_LEN` (R43): a write while BUSY has no effect, otherwise it sets all 32 bits and nothing else; it reads as written;
START does not change it; a power-on reset makes it 0; no step reads the buffer at or beyond it. -/
def Obligations.InputLengthRegister : Prop :=
  ∀ (s : State) (value : Word) (rest : List Move),
    (s.schedule = .host (.writeReg 0x10 4 value) :: rest → s.status = .busy →
      step s = .next { s with schedule := rest }) ∧
    (s.schedule = .host (.writeReg 0x10 4 value) :: rest → s.status ≠ .busy →
      step s = .next { s with schedule := rest, inLen := value }) ∧
    (s.schedule = .host (.readReg 0x10 4) :: rest → ∃ t, step s = .next t ∧ t.readData = s.inLen ∧ t.inLen = s.inLen) ∧
    (∀ t, s.schedule = .host (.writeReg 0x00 4 value) :: rest → step s = .next t → t.inLen = s.inLen) ∧
    (∀ t, s.schedule = .host .powerOn :: rest → step s = .next t → t.inLen = 0) ∧
    (∀ addr, step s ≠ .fault (.beyondInLen addr))

/-- A defined write to any register but CTRL and `IN_LEN`, and to any offset past them, has no effect (10_state.md section
3). -/
def Obligations.ReadOnlyWritesHaveNoEffect : Prop :=
  ∀ (s : State) (offset : Nat) (value : Word) (rest : List Move),
    s.schedule = .host (.writeReg offset 4 value) :: rest → offset % 4 = 0 → offset < 0x100 → offset ≠ 0x00 →
    offset ≠ 0x10 → step s = .next { s with schedule := rest }

/-- The register map as the host reads it while no decode is in progress: each register at its offset, reserved bits and the
offsets 0x30 to 0xFF read 0, and a read changes nothing but the word it returns and the model's draw counter (10_state.md
section 3; logs 9 and 10). -/
def Obligations.RegisterMapReads : Prop :=
  ∀ (s : State) (offset : Nat) (rest : List Move), s.status ≠ .busy →
    s.schedule = .host (.readReg offset 4) :: rest → offset % 4 = 0 → offset < 0x100 →
    ∃ v, step s = .next { s with schedule := rest, readData := v, draws := s.draws + 1 } ∧
      (offset = 0x00 → v = 0) ∧
      (offset = 0x04 → v.toNat = (match s.status with | .idle => 0 | .busy => 1 | .done => 2 | .error => 3)) ∧
      (offset = 0x08 → v.toNat = (match s.error with
        | none => 0 | some .badSignature => 1 | some .truncated => 2 | some .unknownChunkTag => 3
        | some .missingTrailer => 4)) ∧
      (offset = 0x0C → v = s.errPos) ∧ (offset = 0x10 → v = s.inLen) ∧ (offset = 0x14 → v = s.pos) ∧
      (offset = 0x18 → v = s.hdrWidth) ∧ (offset = 0x1C → v = s.hdrHeight) ∧
      (offset = 0x20 → v.toNat =
        s.hdrFmt.channels.toNat + 256 * s.hdrFmt.colorspace.toNat + 65536 * s.hdrFmt.valid.toNat) ∧
      (offset = 0x24 → v = s.chunkCount) ∧
      (offset = 0x28 → v.toNat = s.pixCount.toNat % 2 ^ 32) ∧ (offset = 0x2C → v.toNat = s.pixCount.toNat / 2 ^ 32) ∧
      (0x30 ≤ offset → v = 0)

/-- A register read while BUSY returns one of the values kept of this decode, for each of the registers of R319
(70_reset_and_hazards.md section 3; which one is free, log 9; that the kept values are this decode's is
`HeldMomentsAreOfThisDecode`); STATUS reads BUSY, CTRL and the offsets past the last register read 0, and the other registers
read the value they have. -/
def Obligations.BusyReadIsAHeldValue : Prop :=
  ∀ (s : State) (offset : Nat) (rest : List Move), s.status = .busy →
    s.schedule = .host (.readReg offset 4) :: rest → offset % 4 = 0 → offset < 0x100 →
    ∃ v, step s = .next { s with schedule := rest, readData := v, draws := s.draws + 1 } ∧
      (offset = 0x00 → v = 0) ∧ (offset = 0x04 → v = 1) ∧
      (offset = 0x08 → v.toNat = (match s.error with
        | none => 0 | some .badSignature => 1 | some .truncated => 2 | some .unknownChunkTag => 3
        | some .missingTrailer => 4)) ∧
      (offset = 0x0C → v = s.errPos) ∧ (offset = 0x10 → v = s.inLen) ∧ (0x30 ≤ offset → v = 0) ∧
      ∃ m ∈ s.moment :: s.moments,
        (offset = 0x14 → v = m.pos) ∧ (offset = 0x18 → v = m.hdrWidth) ∧ (offset = 0x1C → v = m.hdrHeight) ∧
        (offset = 0x20 → v = m.hdrFmt.word) ∧ (offset = 0x24 → v = m.chunkCount) ∧
        (offset = 0x28 → v.toNat = m.pixCount.toNat % 2 ^ 32) ∧ (offset = 0x2C → v.toNat = m.pixCount.toNat / 2 ^ 32)

/-- A register access of another width or alignment is refused (00_scope.md section 5; 10_state.md section 3). -/
def Obligations.OtherAccessesAreRefused : Prop :=
  ∀ (s : State) (offset bytes : Nat) (value : Word) (rest : List Move), bytes ≠ 4 ∨ offset % 4 ≠ 0 →
    (s.schedule = .host (.writeReg offset bytes value) :: rest → step s = .refused (.undefinedAccess offset bytes)) ∧
    (s.schedule = .host (.readReg offset bytes) :: rest → step s = .refused (.undefinedAccess offset bytes))

/-- A change of the buffer below `IN_LEN` while BUSY is refused; every other placing of a byte succeeds, reads back, leaves
every other address as it was and changes nothing else (20_memory.md section 3; what counts as a change is log 13). -/
def Obligations.PlacingABufferByte : Prop :=
  ∀ (s : State) (addr : Word) (value : Byte) (rest : List Move), s.schedule = .host (.load addr value) :: rest →
    (s.status = .busy → addr.toNat < s.inLen.toNat → s.input.read addr.toNat ≠ some value →
      step s = .refused (.bufferChangedWhileBusy addr.toNat)) ∧
    (s.status ≠ .busy ∨ s.inLen.toNat ≤ addr.toNat ∨ s.input.read addr.toNat = some value →
      ∃ m, step s = .next { s with schedule := rest, input := m } ∧ m.read addr.toNat = some value ∧
        ∀ other, other ≠ addr.toNat → m.read other = s.input.read other)

/-- The `done` output is 1 exactly when STATE is DONE (2) or ERROR (3) (60_exceptions.md section 3). -/
def Obligations.DoneOutput : Prop :=
  ∀ s : State, s.doneSignal = true ↔ s.status.word = 2 ∨ s.status.word = 3

/-! The whole machine. -/

/-- The invariant holds at reset; its clauses on CTRL, on the output interface and on the kept moments are about the model's
own form of them (logs 16, 6 and 9), and that the buffer is empty there is log 5. -/
def Obligations.InvariantAtReset : Prop := Inv State.reset

/-- Every step of either agent keeps the invariant: the buffer's canonical form, VALID with PHASE, CODE with STATE, `POS` inside
`IN_LEN`, counters that have not wrapped, from a START on a cache whose slots hold pixels that hash to them; and, in the
model's own terms, a CTRL that holds 0 (log 16), an offered pixel that is the chunk's next one (log 6), and kept moments that
are one decode's from its START on (log 9). -/
def Obligations.StepKeepsTheInvariant : Prop :=
  ∀ s t : State, Inv s → step s = .next t → Inv t

/-- At every state of a decode, a slot holds the last committed pixel that hashes to it, or the zero pixel if none does, and
that is the last produced pixel that hashes to it as well; `cache[h(prev)] = prev` after any chunk (R172). The same of any
sequence of commits from an all-zero cache; at the start of a decode it does not hold. -/
def Obligations.CacheHoldsTheLastCommitted : Prop :=
  (∀ (committed produced : List Pixel) (t : State), InDecode committed produced t →
    (∀ slot : BitVec 6,
      t.cache[slot.toNat]'slot.isLt =
        ((committed.filter (fun p => pixelHash p = slot)).getLast?).getD ⟨0, 0, 0, 0⟩ ∧
      t.cache[slot.toNat]'slot.isLt =
        ((produced.filter (fun p => pixelHash p = slot)).getLast?).getD ⟨0, 0, 0, 0⟩) ∧
    (committed ≠ [] → committed.getLast? = some t.prev ∧
      t.cache[(pixelHash t.prev).toNat]'(pixelHash t.prev).isLt = t.prev)) ∧
  (∀ (commits : List (Pixel × Nat × Nat)) (s t : State), s.cache = Vector.replicate 64 ⟨0, 0, 0, 0⟩ →
    t = commits.foldl (fun u c => u.commit c.1 c.2.1 c.2.2) s →
    (∀ slot : BitVec 6, t.cache[slot.toNat]'slot.isLt =
      (((commits.map (·.1)).filter (fun p => pixelHash p = slot)).getLast?).getD ⟨0, 0, 0, 0⟩) ∧
    (commits ≠ [] → t.cache[(pixelHash t.prev).toNat]'(pixelHash t.prev).isLt = t.prev)) ∧
  (∀ s : State, pixelHash s.startDecode.prev = 53 ∧ s.startDecode.cache[53] = ⟨0, 0, 0, 0⟩ ∧
    s.startDecode.prev ≠ ⟨0, 0, 0, 0⟩ ∧ pixelHash ⟨0, 0, 0, 0⟩ = 0)

/-- While BUSY, every value the model has kept for reads was held by the registers at an earlier state of the same run, and the
block has been BUSY from there to here, so in this decode (70_reset_and_hazards.md section 3; log 9). The run starts where
nothing has been kept, as at reset and right after a START. -/
def Obligations.HeldMomentsAreOfThisDecode : Prop :=
  ∀ (k : Nat) (s t : State), s.moments = [] → core.run k s = .next t → t.status = .busy →
    ∀ m ∈ t.moments, ∃ j u, j < k ∧ core.run j s = .next u ∧ u.moment = m ∧
      ∀ n v, j ≤ n → n ≤ k → core.run n s = .next v → v.status = .busy
end

