-- ==== Sys2Proof/Laws/Decode.lean ====
section
/-! SUPPORT. What the decoder can answer. -/

namespace Sys2Proof

/-- The first byte's tag tells the first three kinds; the rest are RGB, RGBA and RUN. -/
theorem classify_cases (b0 : Byte) :
    (tag2 b0 = 0b01#2 ∧ classify b0 = .ok .diff) ∨ (tag2 b0 = 0b00#2 ∧ classify b0 = .ok .index) ∨
    (tag2 b0 = 0b10#2 ∧ classify b0 = .ok .luma) ∨ (b0 = 0xFE#8 ∧ classify b0 = .ok .rgb) ∨
    (b0 = 0xFF#8 ∧ classify b0 = .ok .rgba) ∨
    (tag2 b0 = 0b11#2 ∧ (low6 b0).toNat < 62 ∧ classify b0 = .ok .run) := by
  revert b0; decide

/-- What `decodeChunk` answers on bytes that are not a trailer. -/
theorem decodeChunk_cons {b0 : Byte} {later : List Byte} (h : (b0 :: later).take 8 ≠ trailerBytes) {kind : Kind}
    (hk : classify b0 = .ok kind) : decodeChunk (b0 :: later) = chunkFields kind b0 later := by
  unfold decodeChunk
  rw [if_neg h]
  simp [hk]

/-- Bytes that decode to the trailer begin with its eight bytes. -/
theorem decodeChunk_trailer {bytes : List Byte} (h : bytes.take 8 = trailerBytes) :
    decodeChunk bytes = .ok .trailer := by
  simp [decodeChunk, h]

/-- The fields of a chunk never make a trailer or a header. -/
theorem chunkFields_isChunk {kind : Kind} {b0 : Byte} {later : List Byte} {i : Instr}
    (h : chunkFields kind b0 later = .ok i) : i.isChunk = true := by
  unfold chunkFields at h
  split at h <;> cases h <;> rfl

/-- A rejection by `chunkFields` is `truncated`. -/
theorem chunkFields_error {kind : Kind} {b0 : Byte} {later : List Byte} {e : FormatError}
    (h : chunkFields kind b0 later = .error e) : e = .truncated := by
  unfold chunkFields at h
  split at h <;> cases h <;> rfl

/-- The decoder's answers: the trailer, nothing left, or the fields of the kind the first byte tells. -/
theorem decodeChunk_cases (bytes : List Byte) :
    (bytes.take 8 = trailerBytes ∧ decodeChunk bytes = .ok .trailer) ∨
    (bytes = [] ∧ decodeChunk bytes = .error .missingTrailer) ∨
    (bytes.take 8 ≠ trailerBytes ∧ ∃ b0 later kind, bytes = b0 :: later ∧ classify b0 = .ok kind ∧
      decodeChunk bytes = chunkFields kind b0 later) := by
  by_cases h : bytes.take 8 = trailerBytes
  · exact .inl ⟨h, decodeChunk_trailer h⟩
  · right
    cases bytes with
    | nil => left; exact ⟨rfl, rfl⟩
    | cons b0 later =>
      right
      obtain ⟨kind, hk⟩ : ∃ kind, classify b0 = .ok kind := by
        rcases classify_cases b0 with h | h | h | h | h | h <;> first | exact ⟨_, h.2⟩ | exact ⟨_, h.2.2⟩
      exact ⟨h, b0, later, kind, rfl, hk, decodeChunk_cons h hk⟩

/-- A decoded instruction other than the trailer is a chunk. -/
theorem decodeChunk_isChunk {bytes : List Byte} {i : Instr} (h : decodeChunk bytes = .ok i) :
    i = .trailer ∨ i.isChunk = true := by
  rcases decodeChunk_cases bytes with ⟨_, h'⟩ | ⟨_, h'⟩ | ⟨_, b0, later, kind, _, _, h'⟩
  · rw [h'] at h; cases h; exact .inl rfl
  · rw [h'] at h; cases h
  · rw [h'] at h; exact .inr (chunkFields_isChunk h)

/-- Bytes that begin with a nonzero byte are no trailer. -/
theorem take_ne_trailer {b0 : Byte} (later : List Byte) (h : b0 ≠ 0) : (b0 :: later).take 8 ≠ trailerBytes := by
  intro e
  simp only [trailerBytes, List.take_succ_cons, List.cons.injEq] at e
  exact h e.1

/-- A decoded instruction is no longer than the bytes it was decoded from. -/
theorem decodeChunk_byteLength_le {bytes : List Byte} {i : Instr} (h : decodeChunk bytes = .ok i) :
    i.byteLength ≤ bytes.length := by
  rcases decodeChunk_cases bytes with ⟨ht, h'⟩ | ⟨_, h'⟩ | ⟨_, b0, later, kind, rfl, _, h'⟩
  · rw [h'] at h
    cases h
    have := congrArg List.length ht
    simp only [List.length_take, trailerBytes, List.length_cons, List.length_nil] at this
    simp only [Instr.byteLength]
    omega
  · rw [h'] at h; cases h
  · rw [h'] at h
    unfold chunkFields at h
    split at h <;> cases h <;> simp [Instr.byteLength]

/-- The decoder looks at the first eight bytes only. -/
theorem decodeChunk_take (bytes : List Byte) : decodeChunk (bytes.take 8) = decodeChunk bytes := by
  unfold decodeChunk
  rw [List.take_take, Nat.min_self]
  by_cases h : bytes.take 8 = trailerBytes
  · rw [if_pos h, if_pos h]
  · rw [if_neg h, if_neg h]
    rcases bytes with _ | ⟨_, _ | ⟨_, _ | ⟨_, _ | ⟨_, _ | ⟨_, _⟩⟩⟩⟩⟩ <;> try rfl
    simp only [List.take_succ_cons]
    split
    · rfl
    · rename_i kind _; cases kind <;> rfl

/-- The header's decoder looks at the first fourteen bytes only. -/
theorem decodeHeader_take (sig : Word) (bytes : List Byte) : decodeHeader sig (bytes.take 14) = decodeHeader sig bytes := by
  rcases bytes with _ | ⟨_, _ | ⟨_, _ | ⟨_, _ | ⟨_, _ | ⟨_, _ | ⟨_, _ | ⟨_, _ | ⟨_, _ | ⟨_, _ | ⟨_, _ | ⟨_, _ | ⟨_, _ | ⟨_, _ | ⟨_, _⟩⟩⟩⟩⟩⟩⟩⟩⟩⟩⟩⟩⟩⟩ <;>
    simp [decodeHeader]

/-- What the header's decoder answers is a header, and it had fourteen bytes. -/
theorem decodeHeader_ok {sig : Word} {bytes : List Byte} {i : Instr} (h : decodeHeader sig bytes = .ok i) :
    14 ≤ bytes.length ∧ ∃ width height channels colorspace, i = .header width height channels colorspace := by
  unfold decodeHeader at h
  split at h
  · split at h
    · split at h
      · cases h
        exact ⟨by simp, _, _, _, _, rfl⟩
      · cases h
    · cases h
  · cases h

/-- The encoded first bytes are read back: RUN, INDEX and LUMA by their low six bits, DIFF by its three fields. -/
theorem low6_append (tag : BitVec 2) (v : BitVec 6) : tag2 (tag ++ v) = tag ∧ low6 (tag ++ v) = v := by
  revert tag v; decide

theorem diff_byte (dr dg db : BitVec 2) :
    classify (0b01#2 ++ dr ++ dg ++ db) = .ok .diff ∧ (0b01#2 ++ dr ++ dg ++ db : Byte) ≠ 0 ∧
    ∀ later, chunkFields .diff (0b01#2 ++ dr ++ dg ++ db) later = .ok (.diff dr dg db) := by
  have all : ∀ dr dg db : BitVec 2, classify (0b01#2 ++ dr ++ dg ++ db) = .ok .diff ∧
      (0b01#2 ++ dr ++ dg ++ db : Byte) ≠ 0 ∧
      chunkFields .diff (0b01#2 ++ dr ++ dg ++ db) [] = .ok (.diff dr dg db) := by decide
  exact ⟨(all dr dg db).1, (all dr dg db).2.1, fun _ => (all dr dg db).2.2⟩

theorem nibbles_append (hi lo : BitVec 4) :
    (hi ++ lo : Byte).extractLsb' 4 4 = hi ∧ (hi ++ lo : Byte).extractLsb' 0 4 = lo := by
  revert hi lo; decide

/-- A word of four bytes, taken apart again. -/
theorem bytesOfWord_wordOfBytes (b0 b1 b2 b3 : Byte) : bytesOfWord (wordOfBytes b0 b1 b2 b3) = [b0, b1, b2, b3] := by
  simp only [bytesOfWord, wordOfBytes, List.cons.injEq, and_true]
  refine ⟨?_, ?_, ?_, ?_⟩ <;> ext i hi <;>
    simp [BitVec.getElem_extractLsb'] <;> grind

/-- The four bytes of a word, put together again. -/
theorem wordOfBytes_bytesOfWord (w : Word) :
    wordOfBytes (w.extractLsb' 24 8) (w.extractLsb' 16 8) (w.extractLsb' 8 8) (w.extractLsb' 0 8) = w := by
  unfold wordOfBytes
  ext i hi
  simp only [BitVec.getElem_append, BitVec.getElem_extractLsb']
  grind

end Sys2Proof
end

