-- ==== Sys2Proof/Laws/State.lean ====
section
/-! SUPPORT. One lemma for each field of State under each update, so that no proof unfolds a record update. -/

namespace Sys2Proof.Machine

/-! `State.raise`. -/

@[simp] theorem raise_prev (kind : FormatError) (s : State) : (s.raise kind).prev = s.prev := rfl
@[simp] theorem raise_cache (kind : FormatError) (s : State) : (s.raise kind).cache = s.cache := rfl
@[simp] theorem raise_pos (kind : FormatError) (s : State) : (s.raise kind).pos = s.pos := rfl
@[simp] theorem raise_phase (kind : FormatError) (s : State) : (s.raise kind).phase = s.phase := rfl
@[simp] theorem raise_ctrl (kind : FormatError) (s : State) : (s.raise kind).ctrl = s.ctrl := rfl
@[simp] theorem raise_status (kind : FormatError) (s : State) : (s.raise kind).status = .error := rfl
@[simp] theorem raise_error (kind : FormatError) (s : State) : (s.raise kind).error = some kind := rfl
@[simp] theorem raise_errPos (kind : FormatError) (s : State) : (s.raise kind).errPos = s.pos := rfl
@[simp] theorem raise_hdrWidth (kind : FormatError) (s : State) : (s.raise kind).hdrWidth = s.hdrWidth := rfl
@[simp] theorem raise_hdrHeight (kind : FormatError) (s : State) : (s.raise kind).hdrHeight = s.hdrHeight := rfl
@[simp] theorem raise_hdrFmt (kind : FormatError) (s : State) : (s.raise kind).hdrFmt = s.hdrFmt := rfl
@[simp] theorem raise_inLen (kind : FormatError) (s : State) : (s.raise kind).inLen = s.inLen := rfl
@[simp] theorem raise_chunkCount (kind : FormatError) (s : State) : (s.raise kind).chunkCount = s.chunkCount := rfl
@[simp] theorem raise_pixCount (kind : FormatError) (s : State) : (s.raise kind).pixCount = s.pixCount := rfl
@[simp] theorem raise_input (kind : FormatError) (s : State) : (s.raise kind).input = s.input := rfl
@[simp] theorem raise_out (kind : FormatError) (s : State) : (s.raise kind).out = s.out := rfl
@[simp] theorem raise_schedule (kind : FormatError) (s : State) : (s.raise kind).schedule = s.schedule := rfl
@[simp] theorem raise_readData (kind : FormatError) (s : State) : (s.raise kind).readData = s.readData := rfl
@[simp] theorem raise_moments (kind : FormatError) (s : State) : (s.raise kind).moments = s.moments := rfl
@[simp] theorem raise_draws (kind : FormatError) (s : State) : (s.raise kind).draws = s.draws := rfl

/-! `State.commit`. -/

@[simp] theorem commit_prev (p : Pixel) (n k : Nat) (s : State) : (s.commit p n k).prev = p := rfl
@[simp] theorem commit_cache (p : Pixel) (n k : Nat) (s : State) : (s.commit p n k).cache = cacheWith s.cache p := rfl
@[simp] theorem commit_pos (p : Pixel) (n k : Nat) (s : State) : (s.commit p n k).pos = s.pos + BitVec.ofNat 32 n := rfl
@[simp] theorem commit_phase (p : Pixel) (n k : Nat) (s : State) : (s.commit p n k).phase = s.phase := rfl
@[simp] theorem commit_ctrl (p : Pixel) (n k : Nat) (s : State) : (s.commit p n k).ctrl = s.ctrl := rfl
@[simp] theorem commit_status (p : Pixel) (n k : Nat) (s : State) : (s.commit p n k).status = s.status := rfl
@[simp] theorem commit_error (p : Pixel) (n k : Nat) (s : State) : (s.commit p n k).error = s.error := rfl
@[simp] theorem commit_errPos (p : Pixel) (n k : Nat) (s : State) : (s.commit p n k).errPos = s.errPos := rfl
@[simp] theorem commit_hdrWidth (p : Pixel) (n k : Nat) (s : State) : (s.commit p n k).hdrWidth = s.hdrWidth := rfl
@[simp] theorem commit_hdrHeight (p : Pixel) (n k : Nat) (s : State) : (s.commit p n k).hdrHeight = s.hdrHeight := rfl
@[simp] theorem commit_hdrFmt (p : Pixel) (n k : Nat) (s : State) : (s.commit p n k).hdrFmt = s.hdrFmt := rfl
@[simp] theorem commit_inLen (p : Pixel) (n k : Nat) (s : State) : (s.commit p n k).inLen = s.inLen := rfl
@[simp] theorem commit_chunkCount (p : Pixel) (n k : Nat) (s : State) : (s.commit p n k).chunkCount = s.chunkCount + 1 := rfl
@[simp] theorem commit_pixCount (p : Pixel) (n k : Nat) (s : State) : (s.commit p n k).pixCount = s.pixCount + BitVec.ofNat 64 k := rfl
@[simp] theorem commit_input (p : Pixel) (n k : Nat) (s : State) : (s.commit p n k).input = s.input := rfl
@[simp] theorem commit_out (p : Pixel) (n k : Nat) (s : State) : (s.commit p n k).out = s.out := rfl
@[simp] theorem commit_schedule (p : Pixel) (n k : Nat) (s : State) : (s.commit p n k).schedule = s.schedule := rfl
@[simp] theorem commit_readData (p : Pixel) (n k : Nat) (s : State) : (s.commit p n k).readData = s.readData := rfl
@[simp] theorem commit_moments (p : Pixel) (n k : Nat) (s : State) : (s.commit p n k).moments = s.moment :: s.moments := rfl
@[simp] theorem commit_draws (p : Pixel) (n k : Nat) (s : State) : (s.commit p n k).draws = s.draws := rfl

/-! `State.startDecode`. -/

@[simp] theorem startDecode_prev (s : State) : (s.startDecode).prev = ⟨0, 0, 0, 255⟩ := rfl
@[simp] theorem startDecode_cache (s : State) : (s.startDecode).cache = Vector.replicate 64 Pixel.zero := rfl
@[simp] theorem startDecode_pos (s : State) : (s.startDecode).pos = 0 := rfl
@[simp] theorem startDecode_phase (s : State) : (s.startDecode).phase = .header := rfl
@[simp] theorem startDecode_ctrl (s : State) : (s.startDecode).ctrl = 0 := rfl
@[simp] theorem startDecode_status (s : State) : (s.startDecode).status = .busy := rfl
@[simp] theorem startDecode_error (s : State) : (s.startDecode).error = none := rfl
@[simp] theorem startDecode_errPos (s : State) : (s.startDecode).errPos = 0 := rfl
@[simp] theorem startDecode_hdrWidth (s : State) : (s.startDecode).hdrWidth = 0 := rfl
@[simp] theorem startDecode_hdrHeight (s : State) : (s.startDecode).hdrHeight = 0 := rfl
@[simp] theorem startDecode_hdrFmt (s : State) : (s.startDecode).hdrFmt = ⟨0, 0, false⟩ := rfl
@[simp] theorem startDecode_inLen (s : State) : (s.startDecode).inLen = s.inLen := rfl
@[simp] theorem startDecode_chunkCount (s : State) : (s.startDecode).chunkCount = 0 := rfl
@[simp] theorem startDecode_pixCount (s : State) : (s.startDecode).pixCount = 0 := rfl
@[simp] theorem startDecode_input (s : State) : (s.startDecode).input = s.input := rfl
@[simp] theorem startDecode_out (s : State) : (s.startDecode).out = { s.out with sent := 0, offer := none } := rfl
@[simp] theorem startDecode_schedule (s : State) : (s.startDecode).schedule = s.schedule := rfl
@[simp] theorem startDecode_readData (s : State) : (s.startDecode).readData = s.readData := rfl
@[simp] theorem startDecode_moments (s : State) : (s.startDecode).moments = [] := rfl
@[simp] theorem startDecode_draws (s : State) : (s.startDecode).draws = s.draws := rfl

/-! `State.powerOn`. -/

@[simp] theorem powerOn_prev (s : State) : (s.powerOn).prev = State.reset.prev := rfl
@[simp] theorem powerOn_cache (s : State) : (s.powerOn).cache = State.reset.cache := rfl
@[simp] theorem powerOn_pos (s : State) : (s.powerOn).pos = State.reset.pos := rfl
@[simp] theorem powerOn_phase (s : State) : (s.powerOn).phase = State.reset.phase := rfl
@[simp] theorem powerOn_ctrl (s : State) : (s.powerOn).ctrl = State.reset.ctrl := rfl
@[simp] theorem powerOn_status (s : State) : (s.powerOn).status = State.reset.status := rfl
@[simp] theorem powerOn_error (s : State) : (s.powerOn).error = State.reset.error := rfl
@[simp] theorem powerOn_errPos (s : State) : (s.powerOn).errPos = State.reset.errPos := rfl
@[simp] theorem powerOn_hdrWidth (s : State) : (s.powerOn).hdrWidth = State.reset.hdrWidth := rfl
@[simp] theorem powerOn_hdrHeight (s : State) : (s.powerOn).hdrHeight = State.reset.hdrHeight := rfl
@[simp] theorem powerOn_hdrFmt (s : State) : (s.powerOn).hdrFmt = State.reset.hdrFmt := rfl
@[simp] theorem powerOn_inLen (s : State) : (s.powerOn).inLen = State.reset.inLen := rfl
@[simp] theorem powerOn_chunkCount (s : State) : (s.powerOn).chunkCount = State.reset.chunkCount := rfl
@[simp] theorem powerOn_pixCount (s : State) : (s.powerOn).pixCount = State.reset.pixCount := rfl
@[simp] theorem powerOn_input (s : State) : (s.powerOn).input = s.input := rfl
@[simp] theorem powerOn_out (s : State) : (s.powerOn).out = s.out.powerOn (Config.freeDelivered s.draws) := rfl
@[simp] theorem powerOn_schedule (s : State) : (s.powerOn).schedule = s.schedule := rfl
@[simp] theorem powerOn_readData (s : State) : (s.powerOn).readData = s.readData := rfl
@[simp] theorem powerOn_moments (s : State) : (s.powerOn).moments = State.reset.moments := rfl
@[simp] theorem powerOn_draws (s : State) : (s.powerOn).draws = s.draws + 1 := rfl

/-! `State.readRegister`. -/

@[simp] theorem readRegister_prev (offset : Nat) (s : State) : (s.readRegister offset).prev = s.prev := rfl
@[simp] theorem readRegister_cache (offset : Nat) (s : State) : (s.readRegister offset).cache = s.cache := rfl
@[simp] theorem readRegister_pos (offset : Nat) (s : State) : (s.readRegister offset).pos = s.pos := rfl
@[simp] theorem readRegister_phase (offset : Nat) (s : State) : (s.readRegister offset).phase = s.phase := rfl
@[simp] theorem readRegister_ctrl (offset : Nat) (s : State) : (s.readRegister offset).ctrl = s.ctrl := rfl
@[simp] theorem readRegister_status (offset : Nat) (s : State) : (s.readRegister offset).status = s.status := rfl
@[simp] theorem readRegister_error (offset : Nat) (s : State) : (s.readRegister offset).error = s.error := rfl
@[simp] theorem readRegister_errPos (offset : Nat) (s : State) : (s.readRegister offset).errPos = s.errPos := rfl
@[simp] theorem readRegister_hdrWidth (offset : Nat) (s : State) : (s.readRegister offset).hdrWidth = s.hdrWidth := rfl
@[simp] theorem readRegister_hdrHeight (offset : Nat) (s : State) : (s.readRegister offset).hdrHeight = s.hdrHeight := rfl
@[simp] theorem readRegister_hdrFmt (offset : Nat) (s : State) : (s.readRegister offset).hdrFmt = s.hdrFmt := rfl
@[simp] theorem readRegister_inLen (offset : Nat) (s : State) : (s.readRegister offset).inLen = s.inLen := rfl
@[simp] theorem readRegister_chunkCount (offset : Nat) (s : State) : (s.readRegister offset).chunkCount = s.chunkCount := rfl
@[simp] theorem readRegister_pixCount (offset : Nat) (s : State) : (s.readRegister offset).pixCount = s.pixCount := rfl
@[simp] theorem readRegister_input (offset : Nat) (s : State) : (s.readRegister offset).input = s.input := rfl
@[simp] theorem readRegister_out (offset : Nat) (s : State) : (s.readRegister offset).out = s.out := rfl
@[simp] theorem readRegister_schedule (offset : Nat) (s : State) : (s.readRegister offset).schedule = s.schedule := rfl
@[simp] theorem readRegister_readData (offset : Nat) (s : State) : (s.readRegister offset).readData = s.registerAt s.readMoment offset := rfl
@[simp] theorem readRegister_moments (offset : Nat) (s : State) : (s.readRegister offset).moments = s.moments := rfl
@[simp] theorem readRegister_draws (offset : Nat) (s : State) : (s.readRegister offset).draws = s.draws + 1 := rfl

/-! `State.moment` and the port. -/

@[simp] theorem moment_pos (s : State) : s.moment.pos = s.pos := rfl
@[simp] theorem moment_hdrWidth (s : State) : s.moment.hdrWidth = s.hdrWidth := rfl
@[simp] theorem moment_hdrHeight (s : State) : s.moment.hdrHeight = s.hdrHeight := rfl
@[simp] theorem moment_hdrFmt (s : State) : s.moment.hdrFmt = s.hdrFmt := rfl
@[simp] theorem moment_chunkCount (s : State) : s.moment.chunkCount = s.chunkCount := rfl
@[simp] theorem moment_pixCount (s : State) : s.moment.pixCount = s.pixCount := rfl
@[simp] theorem finish_stream (o : OutPort) (e : List Pixel) : (o.finish e).stream = o.stream ++ e := rfl
@[simp] theorem finish_sink (o : OutPort) (e : List Pixel) : (o.finish e).sink = o.sink.after e.length := rfl
@[simp] theorem finish_sent (o : OutPort) (e : List Pixel) : (o.finish e).sent = 0 := rfl
@[simp] theorem finish_offer (o : OutPort) (e : List Pixel) : (o.finish e).offer = none := rfl
@[simp] theorem pause_stream (o : OutPort) (e : List Pixel) (n : Nat) : (o.pause e n).stream = o.stream ++ e.take n := rfl
@[simp] theorem pause_sink (o : OutPort) (e : List Pixel) (n : Nat) : (o.pause e n).sink = o.sink.after n := rfl
@[simp] theorem pause_sent (o : OutPort) (e : List Pixel) (n : Nat) : (o.pause e n).sent = o.sent + n := rfl
@[simp] theorem pause_offer (o : OutPort) (e : List Pixel) (n : Nat) : (o.pause e n).offer = e[n]? := rfl

/-- The error entry of the model is the one claims are stated with. -/
theorem raise_eq_afterRaise (kind : FormatError) (s : State) : s.raise kind = s.afterRaise kind := rfl

end Sys2Proof.Machine
end

