-- ==== Sys2Proof/Laws/Emit.lean ====
section
/-! SUPPORT. What the end of a chunk's step can do: it completes, or it waits for the sink. -/

namespace Sys2Proof.Machine

theorem Sink.accepts_le (k : Sink) (n : Nat) : k.accepts n ≤ n := by
  cases k <;> simp [Sink.accepts]

/-- The slot a commit writes holds the pixel, the others keep theirs. -/
theorem cacheWith_get (cache : Cache) (p : Pixel) (slot : BitVec 6) :
    (cacheWith cache p)[slot.toNat]'slot.isLt = if slot = pixelHash p then p else cache[slot.toNat]'slot.isLt := by
  unfold cacheWith
  rw [Vector.getElem_set]
  by_cases h : slot = pixelHash p
  · simp [h]
  · rw [if_neg h, if_neg]
    intro hn
    exact h (BitVec.eq_of_toNat_eq hn).symm

/-- The hash as a number. -/
theorem pixelHash_toNat (p : Pixel) :
    (pixelHash p).toNat = (3 * p.r.toNat + 5 * p.g.toNat + 7 * p.b.toNat + 11 * p.a.toNat) % 64 := by
  simp [pixelHash, BitVec.toNat_ofNat]

/-- Either the sink takes all that is left and the chunk commits, or it does not and only the port changes. -/
theorem emitAndCommit_cases (e : List Pixel) (p : Pixel) (n : Nat) (s : State) :
    (s.out.sink.accepts (e.drop s.out.sent).length = (e.drop s.out.sent).length ∧
      s.emitAndCommit e p n = State.commit p n e.length { s with out := s.out.finish (e.drop s.out.sent) }) ∨
    (s.out.sink.accepts (e.drop s.out.sent).length < (e.drop s.out.sent).length ∧
      s.emitAndCommit e p n =
        { s with out := s.out.pause (e.drop s.out.sent) (s.out.sink.accepts (e.drop s.out.sent).length) }) := by
  unfold State.emitAndCommit
  by_cases h : s.out.sink.accepts (e.drop s.out.sent).length = (e.drop s.out.sent).length
  · left; exact ⟨h, by simp only [h, if_true]⟩
  · right
    exact ⟨lt_of_le_of_ne (Sink.accepts_le _ _) h, by simp only [h, if_false]⟩

/-- With a ready sink the chunk completes. -/
theorem emitAndCommit_ready {e : List Pixel} {s : State} (hr : s.Ready e.length) (p : Pixel) (n : Nat) :
    s.emitAndCommit e p n = State.commit p n e.length { s with out := s.out.finish e } := by
  rcases emitAndCommit_cases e p n s with ⟨_, h⟩ | ⟨h, _⟩
  · rw [h, hr.sent, List.drop_zero]
  · rw [hr.sent, List.drop_zero, hr.sink] at h
    exact absurd h (lt_irrefl _)

/-- What a completed chunk leaves, in the terms claims are stated with. -/
theorem commit_finish_committed (e : List Pixel) (p : Pixel) (n : Nat) (s : State) :
    Committed s (State.commit p n e.length { s with out := s.out.finish e }) e p n where
  prev := rfl
  slot slot := by
    rw [commit_cache, cacheWith_get, ← pixelHash_toNat]
    by_cases h : slot = pixelHash p
    · simp [h]
    · rw [if_neg h, if_neg]
      exact fun hn => h (BitVec.eq_of_toNat_eq hn)
  pos := by simp [BitVec.toNat_add]
  chunkCount := by simp [BitVec.toNat_add]
  pixCount := by simp [BitVec.toNat_add]
  stream := rfl
  sink := rfl
  sent := rfl
  offer := rfl
  moments := rfl
  beside := ⟨rfl, rfl, rfl, rfl, rfl, rfl, rfl, rfl, rfl, fun _ => rfl, rfl, rfl, rfl⟩

/-- With a ready sink the end of a chunk's step leaves a completed chunk. -/
theorem emitAndCommit_committed {e : List Pixel} {s : State} (hr : s.Ready e.length) (p : Pixel) (n : Nat) :
    Committed s (s.emitAndCommit e p n) e p n := by
  rw [emitAndCommit_ready hr]
  exact commit_finish_committed e p n s

end Sys2Proof.Machine
end

