-- ==== Sys2Proof/Laws/Memory.lean ====
section
/-! SUPPORT. The laws of the input buffer: read after write, the canonical form, and what a read of several bytes answers. -/

namespace Sys2Proof.Machine

theorem Memory.read_write_same (m : Memory) (addr : Nat) (v : Byte) : (m.write addr v).read addr = some v := by
  induction m with
  | nil => simp [Memory.write, Memory.read]
  | cons cell rest ih =>
    obtain ⟨a, b⟩ := cell
    by_cases h1 : addr < a
    · simp [Memory.write, Memory.read, h1]
    · by_cases h2 : addr = a
      · simp [Memory.write, Memory.read, h2]
      · simp [Memory.write, Memory.read, h1, h2, Ne.symm h2, ih]

theorem Memory.read_write_other (m : Memory) {addr other : Nat} (v : Byte) (h : other ≠ addr) :
    (m.write addr v).read other = m.read other := by
  induction m with
  | nil => simp [Memory.write, Memory.read, Ne.symm h]
  | cons cell rest ih =>
    obtain ⟨a, b⟩ := cell
    by_cases h1 : addr < a
    · simp [Memory.write, Memory.read, h1, Ne.symm h]
    · by_cases h2 : addr = a
      · subst h2
        simp [Memory.write, Memory.read, Ne.symm h]
      · simp only [Memory.write, h1, h2, if_false, Memory.read, ih]

/-- A cell of the written buffer is the new one or an old one. -/
theorem Memory.mem_write {m : Memory} {addr : Nat} {v : Byte} {cell : Host.Cell} (h : cell ∈ m.write addr v) :
    cell = (addr, v) ∨ cell ∈ m := by
  induction m with
  | nil => simpa [Memory.write] using h
  | cons c rest ih =>
    obtain ⟨a, b⟩ := c
    by_cases h1 : addr < a
    · simpa [Memory.write, h1] using h
    · by_cases h2 : addr = a
      · subst h2
        simp only [Memory.write, lt_irrefl, if_false, if_true, List.mem_cons] at h
        exact h.imp_right (List.mem_cons_of_mem _)
      · simp only [Memory.write, h1, h2, if_false, List.mem_cons] at h
        rcases h with h | h
        · simp [h]
        · rcases ih h with h | h <;> simp [h]

/-- Placing a byte keeps the canonical form. -/
theorem Memory.write_wf {m : Memory} (hm : m.wf) {addr : Nat} (ha : addr < 2 ^ 32) (v : Byte) : (m.write addr v).wf := by
  refine ⟨?_, fun cell hc => ?_⟩
  · have sorted := hm.1
    clear hm
    induction m with
    | nil => simp [Memory.write]
    | cons c rest ih =>
      obtain ⟨a, b⟩ := c
      rw [List.pairwise_cons] at sorted
      by_cases h1 : addr < a
      · simp only [Memory.write, h1, if_true, List.pairwise_cons]
        refine ⟨fun cell hc => ?_, sorted⟩
        rcases List.mem_cons.1 hc with rfl | hc
        · exact h1
        · exact h1.trans (sorted.1 cell hc)
      · by_cases h2 : addr = a
        · subst h2
          simp only [Memory.write, lt_irrefl, if_false, if_true, List.pairwise_cons]
          exact sorted
        · simp only [Memory.write, h1, h2, if_false, List.pairwise_cons]
          refine ⟨fun cell hc => ?_, ih sorted.2⟩
          rcases Memory.mem_write hc with rfl | hc
          · exact lt_of_le_of_ne (not_lt.1 h1) (Ne.symm h2)
          · exact sorted.1 cell hc
  · rcases Memory.mem_write hc with rfl | hc
    · exact ha
    · exact hm.2 cell hc

/-- Placing several bytes keeps the canonical form. -/
theorem Memory.writeList_wf {m : Memory} (hm : m.wf) (addr : Nat) (vs : List Byte) : (m.writeList addr vs).wf := by
  induction vs generalizing m addr with
  | nil => exact hm
  | cons v rest ih =>
    simp only [Memory.writeList]
    split
    · exact ih (Memory.write_wf hm ‹_› v) _
    · exact ih hm _

theorem reset_memory_wf : State.reset.input.wf := by decide

/-! Reads. -/

/-- A read of one byte answers a byte exactly when the offset lies below `IN_LEN` and the byte has been placed. -/
theorem readByte_eq_ok {s : State} {addr : Nat} {b : Byte} :
    s.readByte addr = .ok b ↔ addr < s.inLen.toNat ∧ s.input.read addr = some b := by
  unfold State.readByte
  split
  · simp; omega
  · cases s.input.read addr <;> simp <;> omega

/-- A read of several bytes answers them exactly when each byte reads. -/
theorem readBytes_eq_ok {s : State} {addr n : Nat} {bs : List Byte} :
    s.readBytes addr n = .ok bs ↔ bs.length = n ∧ ∀ k (h : k < bs.length), s.readByte (addr + k) = .ok bs[k] := by
  induction n generalizing addr bs with
  | zero =>
    simp only [State.readBytes, Except.ok.injEq]
    constructor
    · rintro rfl; simp
    · rintro ⟨h, _⟩; exact (List.length_eq_zero_iff.1 h).symm
  | succ n ih =>
    cases bs with
    | nil =>
      simp only [State.readBytes, List.length_nil]
      constructor
      · intro h; split at h <;> [cases h; (split at h <;> simp at h)]
      · rintro ⟨h, _⟩; cases h
    | cons b rest =>
      have shift : (∀ k (h : k < (b :: rest).length), s.readByte (addr + k) = .ok (b :: rest)[k]) ↔
          s.readByte addr = .ok b ∧ ∀ k (h : k < rest.length), s.readByte (addr + 1 + k) = .ok rest[k] := by
        constructor
        · intro all
          refine ⟨all 0 (Nat.succ_pos _), fun k h => ?_⟩
          have := all (k + 1) (by simpa using h)
          simpa [Nat.add_assoc, Nat.add_comm 1] using this
        · rintro ⟨h0, all⟩ k h
          cases k with
          | zero => simpa using h0
          | succ k =>
            have := all k (by simpa using h)
            simpa [Nat.add_assoc, Nat.add_comm 1] using this
      rw [shift, ← and_assoc, and_comm (b := s.readByte addr = .ok b), and_assoc]
      simp only [State.readBytes, List.length_cons, Nat.add_right_cancel_iff]
      cases h0 : s.readByte addr with
      | error f => simp
      | ok b' =>
        cases h1 : s.readBytes (addr + 1) n with
        | error f => simp [← ih, h1]
        | ok bs' => simp [← ih, h1]

/-- The fault of a read of several bytes is the fault of one of them. -/
theorem readBytes_error {s : State} {addr n : Nat} {f : Fault} (h : s.readBytes addr n = .error f) :
    ∃ k < n, s.readByte (addr + k) = .error f := by
  induction n generalizing addr with
  | zero => simp [State.readBytes] at h
  | succ n ih =>
    simp only [State.readBytes] at h
    cases h0 : s.readByte addr with
    | error f' =>
      simp only [h0, Except.error.injEq] at h
      exact ⟨0, Nat.succ_pos n, h ▸ h0⟩
    | ok b =>
      cases h1 : s.readBytes (addr + 1) n with
      | ok bs => simp [h0, h1] at h
      | error f' =>
        simp only [h0, h1, Except.error.injEq] at h
        obtain ⟨k, hk, hf⟩ := ih (h ▸ h1)
        exact ⟨k + 1, by omega, by rw [← hf, show addr + (k + 1) = addr + 1 + k by omega]⟩

/-- A read below `IN_LEN` can fault only on a byte that nobody has placed. -/
theorem readByte_error {s : State} {addr : Nat} {f : Fault} (ha : addr < s.inLen.toNat) (h : s.readByte addr = .error f) :
    f = .neverLoaded addr ∧ s.input.read addr = none := by
  unfold State.readByte at h
  rw [if_neg (by omega)] at h
  cases hr : s.input.read addr with
  | none => simp only [hr, Except.error.injEq] at h; exact ⟨h.symm, rfl⟩
  | some b => simp [hr] at h

/-- The windows lie below `IN_LEN`. -/
theorem chunkWindow_below {s : State} {k : Nat} (h : k < min 8 s.remaining) : s.pos.toNat + k < s.inLen.toNat := by
  unfold State.remaining at h; omega

/-- What the chunk window answers: the bytes that stand from `POS` on. -/
theorem chunkWindow_eq_ok {s : State} {bs : List Byte} :
    s.chunkWindow = .ok bs ↔ bs.length = min 8 s.remaining ∧ s.Holds s.pos.toNat bs := by
  unfold State.chunkWindow
  rw [readBytes_eq_ok]
  refine and_congr_right fun hl => ?_
  constructor
  · intro all k h; exact (readByte_eq_ok.1 (all k h)).2
  · intro all k h; exact readByte_eq_ok.2 ⟨chunkWindow_below (hl ▸ h), all k h⟩

/-- What the header window answers: the bytes that stand from offset 0 on. -/
theorem headerWindow_eq_ok {s : State} {bs : List Byte} :
    s.headerWindow = .ok bs ↔ bs.length = min 14 s.inLen.toNat ∧ s.Holds 0 bs := by
  unfold State.headerWindow
  rw [readBytes_eq_ok]
  refine and_congr_right fun hl => ?_
  constructor
  · intro all k h; exact (readByte_eq_ok.1 (all k h)).2
  · intro all k h; exact readByte_eq_ok.2 ⟨by omega, all k h⟩

/-- A read of several bytes depends on those bytes only. -/
theorem readBytes_congr {s t : State} {addr n : Nat} (h : ∀ k < n, s.readByte (addr + k) = t.readByte (addr + k)) :
    s.readBytes addr n = t.readBytes addr n := by
  induction n generalizing addr with
  | zero => rfl
  | succ n ih =>
    have h0 := h 0 (Nat.succ_pos n)
    rw [Nat.add_zero] at h0
    simp only [State.readBytes]
    rw [h0, ih fun k hk => by
      have := h (k + 1) (by omega)
      rwa [show addr + 1 + k = addr + (k + 1) by omega]]

/-- On a placed buffer the chunk window reads. -/
theorem chunkWindow_of_loaded {s : State} (hl : s.Loaded) : ∃ bytes, s.chunkWindow = .ok bytes := by
  cases h : s.chunkWindow with
  | ok bytes => exact ⟨bytes, rfl⟩
  | error f =>
    obtain ⟨k, hk, hf⟩ := readBytes_error h
    have below := chunkWindow_below hk
    have some := hl _ below
    rw [(readByte_error below hf).2] at some
    cases some

/-- On a placed buffer the header window reads. -/
theorem headerWindow_of_loaded {s : State} (hl : s.Loaded) : ∃ bytes, s.headerWindow = .ok bytes := by
  cases h : s.headerWindow with
  | ok bytes => exact ⟨bytes, rfl⟩
  | error f =>
    obtain ⟨k, hk, hf⟩ := readBytes_error h
    have below : 0 + k < s.inLen.toNat := by omega
    have some := hl _ below
    rw [(readByte_error below hf).2] at some
    cases some

end Sys2Proof.Machine
end

