-- ==== Sys2Proof/Laws/PerInstr.lean ====
section
/-! SUPPORT. What holds of every instruction as syntax, one lemma per constructor: its encoding has the length the block
advances by. -/

namespace Sys2Proof.Laws.EncodedLength

/-- The encoding of `i` takes `i.byteLength` bytes, whatever SIGNATURE is. -/
def Statement (i : Instr) : Prop := ∀ sig : Word, (encode sig i).length = i.byteLength

theorem diff (dr dg db : BitVec 2) : Statement (.diff dr dg db) := fun _ => rfl
theorem index (slot : BitVec 6) : Statement (.index slot) := fun _ => rfl
theorem luma (dg : BitVec 6) (drdg dbdg : BitVec 4) : Statement (.luma dg drdg dbdg) := fun _ => rfl
theorem rgb (r g b : Byte) : Statement (.rgb r g b) := fun _ => rfl
theorem rgba (r g b a : Byte) : Statement (.rgba r g b a) := fun _ => rfl
theorem run (runRaw : BitVec 6) : Statement (.run runRaw) := fun _ => rfl
theorem trailer : Statement .trailer := fun _ => rfl
theorem header (width height : Word) (channels colorspace : Byte) :
    Statement (.header width height channels colorspace) := fun _ => rfl

end Sys2Proof.Laws.EncodedLength
end

