-- ==== Sys2Proof/Laws/Step.lean ====
section
/-! SUPPORT. What a step can do, said once: which function moves, what an instruction answers, and how a chunk waits. -/

namespace Sys2Proof.Machine

/-! Which function moves. -/

theorem step_of_schedule_nil {s : State} (h : s.schedule = []) : step s = blockStep s := by
  simp [step, h]

theorem step_of_block {s : State} {rest : List Move} (h : s.schedule = .block :: rest) :
    step s = blockStep { s with schedule := rest } := by
  simp [step, h]

theorem step_of_host {s : State} {action : HostAction} {rest : List Move} (h : s.schedule = .host action :: rest) :
    step s = hostAct action { s with schedule := rest } := by
  simp [step, h]

theorem blockStep_of_header {s : State} (hs : s.status = .busy) (hp : s.phase = .header) : blockStep s = headerStep s := by
  simp [blockStep, hs, hp]

theorem blockStep_of_chunks {s : State} (hs : s.status = .busy) (hp : s.phase = .chunks) : blockStep s = chunkStep s := by
  simp [blockStep, hs, hp]

theorem blockStep_of_not_busy {s : State} (hs : s.status ≠ .busy) : blockStep s = .next s := by
  unfold blockStep
  cases h : s.status <;> simp_all

theorem step_header {s : State} (h : s.Enabled .header) {bytes : List Byte} (hw : s.headerWindow = .ok bytes) :
    step s = s.runDecoded (decodeHeader Config.signature bytes) := by
  rw [step_of_schedule_nil h.schedule, blockStep_of_header h.status h.phase, headerStep, hw]

theorem step_chunk {s : State} (h : s.Enabled .chunks) {bytes : List Byte} (hw : s.chunkWindow = .ok bytes) :
    step s = s.runDecoded (decodeChunk bytes) := by
  rw [step_of_schedule_nil h.schedule, blockStep_of_chunks h.status h.phase, chunkStep, hw]

/-! What an instruction answers. -/

/-- A well-formed chunk ends in `emitAndCommit` of its pixels, the last of them, and its length. -/
theorem exec_chunk {i : Instr} (hc : i.isChunk = true) (hw : i.wf = true) (s : State) :
    exec i s = .next (s.emitAndCommit (chunkPixels i s.prev s.cache)
      ((chunkPixels i s.prev s.cache).getLast?.getD s.prev) i.byteLength) := by
  cases i with
  | run runRaw =>
    have hr : reservedRun runRaw = false := by
      have : runRaw.toNat < 62 := by simpa [Instr.wf] using hw
      simp only [reservedRun, Bool.or_eq_false_iff, beq_eq_false_iff_ne, ne_eq]
      constructor <;> rintro rfl <;> simp at this
    have hl : (runPixels runRaw s.prev).getLast?.getD s.prev = s.prev := by
      simp [runPixels, runLength, List.getLast?_replicate]
    simp only [exec, execRun, hr, chunkPixels, hl, Instr.byteLength, Bool.false_eq_true, if_false]
  | diff => rfl
  | index => rfl
  | luma => rfl
  | rgb => rfl
  | rgba => rfl
  | trailer => cases hc
  | header => cases hc

/-- A chunk produces at least one pixel. -/
theorem chunkPixels_ne_nil {i : Instr} (hc : i.isChunk = true) (prev : Pixel) (cache : Cache) :
    chunkPixels i prev cache ≠ [] := by
  cases i <;> simp [Instr.isChunk] at hc <;> simp [chunkPixels, runPixels, runLength]

/-- The decoder answers well-formed instructions only. -/
theorem decodeChunk_wf {bytes : List Byte} {i : Instr} (h : decodeChunk bytes = .ok i) : i.wf = true := by
  rcases decodeChunk_cases bytes with ⟨_, h'⟩ | ⟨_, h'⟩ | ⟨_, b0, later, kind, _, hk, h'⟩
  · rw [h'] at h; cases h; rfl
  · rw [h'] at h; cases h
  · rw [h'] at h
    cases kind with
    | run =>
      simp only [chunkFields, Except.ok.injEq] at h
      subst h
      rcases classify_cases b0 with ⟨_, hc⟩ | ⟨_, hc⟩ | ⟨_, hc⟩ | ⟨_, hc⟩ | ⟨_, hc⟩ | ⟨_, hlow, _⟩ <;>
        first | (rw [hc] at hk; cases hk) | simpa [Instr.wf] using hlow
    | _ => unfold chunkFields at h; split at h <;> cases h <;> first | rfl | contradiction

/-- Every instruction answers a next state. -/
theorem exec_next (i : Instr) (s : State) : ∃ t, exec i s = .next t := by
  cases i with
  | run runRaw =>
    simp only [exec, execRun]
    split <;> exact ⟨_, rfl⟩
  | _ => exact ⟨_, rfl⟩

/-- A chunk produces 1 to 62 pixels. -/
theorem chunkPixels_length {i : Instr} (hc : i.isChunk = true) (hw : i.wf = true) (prev : Pixel) (cache : Cache) :
    1 ≤ (chunkPixels i prev cache).length ∧ (chunkPixels i prev cache).length ≤ 62 := by
  cases i with
  | run runRaw =>
    have : runRaw.toNat < 62 := by simpa [Instr.wf] using hw
    simp only [chunkPixels, runPixels, runLength, List.length_replicate]
    omega
  | trailer => cases hc
  | header => cases hc
  | _ => simp [chunkPixels]

/-- An instruction takes at least one byte. -/
theorem byteLength_pos (i : Instr) : 1 ≤ i.byteLength := by
  cases i <;> simp [Instr.byteLength]

/-- An advance that stays inside `IN_LEN` does not wrap. -/
theorem pos_add_toNat {s : State} {n : Nat} (h : s.pos.toNat + n ≤ s.inLen.toNat) :
    (s.pos + BitVec.ofNat 32 n).toNat = s.pos.toNat + n := by
  have := s.inLen.isLt
  rw [BitVec.toNat_add, BitVec.toNat_ofNat]
  omega

/-! What the block's steps do. -/

/-- A chunk-boundary step raises, ends the decode, or ends a chunk that lies inside `IN_LEN`. -/
theorem chunkStep_cases {s : State} {bytes : List Byte} (hw : s.chunkWindow = .ok bytes) :
    (∃ kind, decodeChunk bytes = .error kind ∧ chunkStep s = .next (s.raise kind)) ∨
    (decodeChunk bytes = .ok .trailer ∧ s.pos.toNat + 8 ≤ s.inLen.toNat ∧
      chunkStep s = .next { s with pos := s.pos + 8, status := .done }) ∨
    (∃ i, decodeChunk bytes = .ok i ∧ i.isChunk = true ∧ i.wf = true ∧
      s.pos.toNat + i.byteLength ≤ s.inLen.toNat ∧
      chunkStep s = .next (s.emitAndCommit (chunkPixels i s.prev s.cache)
        ((chunkPixels i s.prev s.cache).getLast?.getD s.prev) i.byteLength)) := by
  have hl := (chunkWindow_eq_ok.1 hw).1
  have run : chunkStep s = s.runDecoded (decodeChunk bytes) := by rw [chunkStep, hw]
  unfold State.remaining at hl
  cases hd : decodeChunk bytes with
  | error kind => exact .inl ⟨kind, rfl, by rw [run, hd]; rfl⟩
  | ok i =>
    right
    have hle := decodeChunk_byteLength_le hd
    have hpos := byteLength_pos i
    rcases decodeChunk_isChunk hd with rfl | hc
    · simp only [Instr.byteLength] at hle
      exact .inl ⟨rfl, by omega, by rw [run, hd]; rfl⟩
    · exact .inr ⟨i, rfl, hc, decodeChunk_wf hd, by omega,
        by rw [run, hd]; exact exec_chunk hc (decodeChunk_wf hd) s⟩

/-- A header step raises, or fills the header registers from fourteen bytes. -/
theorem headerStep_cases {s : State} {bytes : List Byte} (hw : s.headerWindow = .ok bytes) :
    (∃ kind, decodeHeader Config.signature bytes = .error kind ∧ headerStep s = .next (s.raise kind)) ∨
    (∃ width height channels colorspace,
      decodeHeader Config.signature bytes = .ok (.header width height channels colorspace) ∧ 14 ≤ s.inLen.toNat ∧
      headerStep s = execHeader width height channels colorspace s) := by
  have hl := (headerWindow_eq_ok.1 hw).1
  have run : headerStep s = s.runDecoded (decodeHeader Config.signature bytes) := by rw [headerStep, hw]
  cases hd : decodeHeader Config.signature bytes with
  | error kind => exact .inl ⟨kind, rfl, by rw [run, hd]; rfl⟩
  | ok i =>
    obtain ⟨h14, width, height, channels, colorspace, rfl⟩ := decodeHeader_ok hd
    exact .inr ⟨width, height, channels, colorspace, rfl, by omega, by rw [run, hd]; rfl⟩

/-! How a chunk waits. -/

/-- The port that waits offers the next of the chunk's pixels. -/
theorem pause_waiting {e : List Pixel} {s : State}
    (h : s.out.sink.accepts (e.drop s.out.sent).length < (e.drop s.out.sent).length) :
    Waiting s { s with out := s.out.pause (e.drop s.out.sent) (s.out.sink.accepts (e.drop s.out.sent).length) } e where
  offered := by
    refine ⟨by simp [List.getElem?_drop], ?_⟩
    simp only [pause_sent]
    rw [List.length_drop] at h ⊢
    omega
  emitted := by simp
  progress := by simp
  sink := by simp
  moments := rfl
  prev := rfl
  cache := rfl
  pos := rfl
  chunkCount := rfl
  pixCount := rfl
  beside := ⟨rfl, rfl, rfl, rfl, rfl, rfl, rfl, rfl, rfl, fun _ => rfl, rfl, rfl, rfl⟩

/-! What a step does to a decode: nothing, the header, one commit, its beginning, or its end by a reset. -/

/-- Nothing is committed or kept, and no decode begins. -/
structure NoCommit (s t : State) : Prop where
  moments : t.moments = s.moments
  prev : t.prev = s.prev
  cache : t.cache = s.cache
  chunkCount : t.chunkCount = s.chunkCount
  busy : t.status = .busy → s.status = .busy

/-- The chunk at `POS` is committed. -/
structure CommitsChunk (s t : State) (i : Instr) : Prop where
  busy : s.status = .busy
  phase : s.phase = .chunks
  window : ∃ bytes, s.chunkWindow = .ok bytes ∧ decodeChunk bytes = .ok i
  isChunk : i.isChunk = true
  wf : i.wf = true
  prev : t.prev = (chunkPixels i s.prev s.cache).getLast?.getD s.prev
  cache : t.cache = cacheWith s.cache t.prev
  chunkCount : t.chunkCount = s.chunkCount + 1
  moments : t.moments = s.moment :: s.moments
  status : t.status = .busy

/-- The header is taken in. -/
structure TakesHeader (s t : State) : Prop where
  busy : s.status = .busy
  phase : s.phase = .header
  prev : t.prev = s.prev
  cache : t.cache = s.cache
  chunkCount : t.chunkCount = s.chunkCount
  moments : t.moments = s.moment :: s.moments
  status : t.status = .busy

theorem chunkWindow_with_schedule (s : State) (rest : List Move) :
    ({ s with schedule := rest } : State).chunkWindow = s.chunkWindow :=
  readBytes_congr fun _ _ => rfl

/-- What a move of the block does to a decode. -/
theorem blockStep_course {s t : State} (h : blockStep s = .next t) :
    NoCommit s t ∨ (∃ i, CommitsChunk s t i) ∨ TakesHeader s t := by
  by_cases hs : s.status = .busy
  swap
  · rw [blockStep_of_not_busy hs] at h
    cases h
    exact .inl ⟨rfl, rfl, rfl, rfl, id⟩
  cases hp : s.phase with
  | header =>
    rw [blockStep_of_header hs hp] at h
    cases hw : s.headerWindow with
    | error f => rw [headerStep, hw] at h; cases h
    | ok bytes =>
      rcases headerStep_cases hw with ⟨kind, _, h'⟩ | ⟨_, _, _, _, _, _, h'⟩ <;> rw [h'] at h <;> cases h
      · exact .inl ⟨rfl, rfl, rfl, rfl, fun hb => by cases hb⟩
      · exact .inr (.inr ⟨hs, hp, rfl, rfl, rfl, rfl, hs⟩)
  | chunks =>
    rw [blockStep_of_chunks hs hp] at h
    cases hw : s.chunkWindow with
    | error f => rw [chunkStep, hw] at h; cases h
    | ok bytes =>
      rcases chunkStep_cases hw with ⟨kind, _, h'⟩ | ⟨_, _, h'⟩ | ⟨i, hd, hc, hwf, _, h'⟩ <;> rw [h'] at h <;> cases h
      · exact .inl ⟨rfl, rfl, rfl, rfl, fun hb => by cases hb⟩
      · exact .inl ⟨rfl, rfl, rfl, rfl, fun hb => by cases hb⟩
      · rcases emitAndCommit_cases (chunkPixels i s.prev s.cache)
          ((chunkPixels i s.prev s.cache).getLast?.getD s.prev) i.byteLength s with ⟨_, h⟩ | ⟨_, h⟩ <;> rw [h]
        · exact .inr (.inl ⟨i, hs, hp, ⟨bytes, hw, hd⟩, hc, hwf, rfl, rfl, rfl, rfl, hs⟩)
        · exact .inl ⟨rfl, rfl, rfl, rfl, fun _ => hs⟩

/-- What a host action does to a decode. -/
theorem hostAct_course {action : HostAction} {s t : State} (h : hostAct action s = .next t) :
    NoCommit s t ∨ (s.status ≠ .busy ∧ t = s.startDecode) ∨ t = s.powerOn := by
  cases action with
  | writeReg offset bytes value =>
    simp only [hostAct] at h
    split at h <;> cases h
    unfold State.writeRegister
    split
    · split
      · rename_i hv
        exact .inr (.inl ⟨hv.2, rfl⟩)
      · exact .inl ⟨rfl, rfl, rfl, rfl, id⟩
    · split
      · split <;> exact .inl ⟨rfl, rfl, rfl, rfl, id⟩
      · exact .inl ⟨rfl, rfl, rfl, rfl, id⟩
  | readReg offset bytes =>
    simp only [hostAct] at h
    split at h <;> cases h
    exact .inl ⟨rfl, rfl, rfl, rfl, id⟩
  | load addr value =>
    simp only [hostAct] at h
    split at h <;> cases h
    exact .inl ⟨rfl, rfl, rfl, rfl, id⟩
  | setSink sink => cases h; exact .inl ⟨rfl, rfl, rfl, rfl, id⟩
  | powerOn => cases h; exact .inr (.inr rfl)

/-- What a step does to a decode. -/
theorem step_course {s t : State} (h : step s = .next t) :
    NoCommit s t ∨ (∃ i, CommitsChunk s t i) ∨ TakesHeader s t ∨
    (∃ rest, s.status ≠ .busy ∧ t = ({ s with schedule := rest } : State).startDecode) ∨
    (∃ rest, t = ({ s with schedule := rest } : State).powerOn) := by
  unfold step at h
  split at h
  · rcases blockStep_course h with h | h | h
    · exact .inl h
    · exact .inr (.inl h)
    · exact .inr (.inr (.inl h))
  · rename_i rest _
    rcases blockStep_course h with h | ⟨i, h⟩ | h
    · exact .inl ⟨h.moments, h.prev, h.cache, h.chunkCount, h.busy⟩
    · exact .inr (.inl ⟨i, h.busy, h.phase, chunkWindow_with_schedule s rest ▸ h.window, h.isChunk, h.wf, h.prev, h.cache,
        h.chunkCount, h.moments, h.status⟩)
    · exact .inr (.inr (.inl ⟨h.busy, h.phase, h.prev, h.cache, h.chunkCount, h.moments, h.status⟩))
  · rename_i rest _
    rcases hostAct_course h with h | ⟨hb, h⟩ | h
    · exact .inl ⟨h.moments, h.prev, h.cache, h.chunkCount, h.busy⟩
    · exact .inr (.inr (.inr (.inl ⟨rest, hb, h⟩)))
    · exact .inr (.inr (.inr (.inr ⟨rest, h⟩)))

/-- A run of `k + 1` steps is a step and a run of `k`. -/
theorem run_succ (k : Nat) {s t : State} (h : step s = .next t) : core.run (k + 1) s = core.run k t := by
  have hc : core.step s = .next t := h
  simp only [Host.Core.run, hc]

/-- A run of `k + 1` steps is a run of `k` and one step more. -/
theorem run_succ_last {k : Nat} {s u : State} (h : core.run (k + 1) s = .next u) :
    ∃ t, core.run k s = .next t ∧ step t = .next u := by
  induction k generalizing s with
  | zero =>
    cases hs : step s with
    | next s' => rw [run_succ 0 hs] at h; cases h; exact ⟨s, rfl, hs⟩
    | fault r => simp [Host.Core.run, core, hs] at h
    | refused r => simp [Host.Core.run, core, hs] at h
  | succ k ih =>
    cases hs : step s with
    | next s' =>
      rw [run_succ _ hs] at h
      obtain ⟨t, ht, hu⟩ := ih h
      exact ⟨t, (run_succ k hs).trans ht, hu⟩
    | fault r => simp [Host.Core.run, core, hs] at h
    | refused r => simp [Host.Core.run, core, hs] at h

end Sys2Proof.Machine
end

