-- ==== Sys2Proof/Tests/Slice0.lean ====
section
/-! SUPPORT. Tests of the definitions, their expected results taken from spec/95_test_vectors.md and the rules, and, for each
statement with hypotheses, a witness that meets them. -/

namespace Sys2Proof.Tests

open Sys2Proof.Machine

/-! WellFormed. -/

theorem test_wf_refuses_reserved_runs : (Instr.run 62).wf = false ∧ (Instr.run 63).wf = false := by decide
theorem test_wf_accepts_longest_run : (Instr.run 61).wf = true := by decide

/-! Decoding, from words written out bit by bit (30_encoding.md R102 to R109). -/

/-- `01 11 00 01` (V5). -/
theorem test_decode_diff : decodeChunk [0b01110001] = .ok (.diff 3 0 1) := by decide
/-- `00 000100` (V4). -/
theorem test_decode_index : decodeChunk [0b00000100] = .ok (.index 4) := by decide
/-- `10 100001`, `0111 1001` (95_test_vectors.md 2.7, `A1 79`). -/
theorem test_decode_luma : decodeChunk [0b10100001, 0b01111001] = .ok (.luma 33 7 9) := by decide
theorem test_decode_luma_short : decodeChunk [0b10111111] = .error .truncated := by decide
/-- V2. -/
theorem test_decode_rgb : decodeChunk [0b11111110, 0xA3, 0x89, 0x43] = .ok (.rgb 0xA3 0x89 0x43) := by decide
theorem test_decode_rgb_short : decodeChunk [0b11111110, 1, 2] = .error .truncated := by decide
/-- V3. -/
theorem test_decode_rgba : decodeChunk [0b11111111, 0xA3, 0x89, 0x43, 0x44] = .ok (.rgba 0xA3 0x89 0x43 0x44) := by decide
theorem test_decode_rgba_short : decodeChunk [0b11111111, 1, 2, 3] = .error .truncated := by decide
/-- `11 000011` (V6) and `11 111101`. -/
theorem test_decode_run : decodeChunk [0b11000011] = .ok (.run 3) ∧ decodeChunk [0b11111101] = .ok (.run 61) := by decide
/-- 95_test_vectors.md 2.9. -/
theorem test_decode_trailer : decodeChunk [0, 0, 0, 0, 0, 0, 0, 1, 0xFF] = .ok .trailer ∧
    decodeChunk [0, 0, 0, 0, 0, 0, 0, 2] = .ok (.index 0) := by decide
/-- V1 and 2.3 of 95_test_vectors.md, with a SIGNATURE of 1, 2, 3, 4. -/
theorem test_decode_header :
    decodeHeader 0x01020304 [1, 2, 3, 4, 0, 0, 0, 5, 0x12, 0x34, 0x56, 0x78, 3, 1] = .ok (.header 5 0x12345678 3 1) ∧
    decodeHeader 0x01020304 [9, 2, 3, 4, 0] = .error .badSignature ∧
    decodeHeader 0x01020304 [1, 2, 3, 4, 0, 0] = .error .truncated := by decide

/-- The rows' words in the table's numbering of bits; LUMA's second byte is bits 15 to 8. -/
theorem test_table_words :
    decodeTableWord 8 0x71 = some (.diff 3 0 1) ∧ decodeTableWord 8 0x00 = some (.index 0) ∧
    decodeTableWord 16 0xF0BF = some (.luma 63 15 0) ∧ decodeTableWord 8 0x80 = some (.luma 0 0 0) ∧
    decodeTableWord 32 0x4389A3FE = some (.rgb 0xA3 0x89 0x43) ∧ decodeTableWord 8 0xFF = some (.rgba 0 0 0 0) ∧
    decodeTableWord 8 0xC0 = some (.run 0) ∧ decodeTableWord 64 0x0100000000000000 = some .trailer := by decide

/-- The assembler syntax: the equivalent lines and the expansion of 30_encoding.md section 6, and an operand out of range. -/
theorem test_assemble :
    assembleBytes 0 (.diff 0 0 0) = some [0x6A] ∧ assembleBytes 0 (.luma 0 0 0) = some [0xA0, 0x88] ∧
    assembleBytes 0 (.run 1) = some [0xC0] ∧ assembleBytes 0 .copy = some [0xC0] ∧
    assembleBytes 0 (.repeatPrev 63) = some [0xFD, 0xC0] ∧ assembleBytes 0 (.repeatPrev 62) = some [0xFD] ∧
    assembleBytes 0 .trailer = some [0, 0, 0, 0, 0, 0, 0, 1] ∧
    assembleBytes 0x01020304 (.header 5 7 3 1) = some [1, 2, 3, 4, 0, 0, 0, 5, 0, 0, 0, 7, 3, 1] := by decide
theorem test_assemble_refuses :
    assembleBytes 0 (.diff 2 0 0) = none ∧ assembleBytes 0 (.luma 0 0 (-9)) = none ∧ assembleBytes 0 (.index 64) = none ∧
    assembleBytes 0 (.run 63) = none ∧ assembleBytes 0 (.rgb 256 0 0) = none := by decide

/-- A pixel's word on the output interface (20_memory.md R74). -/
theorem test_pixel_word : (⟨1, 2, 3, 4⟩ : Pixel).word = 0x01020304 := by decide

/-! One step on small states. -/

/-- A decode past its header, with these bytes from offset 14 to the end of the input. -/
def chunkState (bytes : List Byte) (prev : Pixel) : State :=
  { State.reset.startDecode with
    phase := .chunks
    hdrFmt := ⟨4, 0, true⟩
    pos := 14
    inLen := BitVec.ofNat 32 (14 + bytes.length)
    input := Memory.writeList [] 14 bytes
    prev := prev }

/-- The next state, where there is one. -/
def nextOf (o : Host.Outcome State Fault Refusal) : Option State :=
  match o with
  | .next s => some s
  | .fault _ => none
  | .refused _ => none

/-- What most tests look at: the pixels emitted, `POS`, and one slot of the cache. -/
def seen (bytes : List Byte) (prev : Pixel) (slot : BitVec 6) : Option (List Pixel × Word × Pixel) :=
  (nextOf (step (chunkState bytes prev))).map fun t => (t.out.stream, t.pos, cachedPixel slot t.cache)

/-- 95_test_vectors.md 2.6. -/
theorem test_step_diff : seen [0x71] ⟨10, 10, 10, 255⟩ 61 = some ([⟨11, 8, 9, 255⟩], 15, ⟨11, 8, 9, 255⟩) := by decide
theorem test_step_diff_wraps : seen [0x40] ⟨0, 0, 0, 255⟩ 23 = some ([⟨254, 254, 254, 255⟩], 15, ⟨254, 254, 254, 255⟩) := by decide
/-- 95_test_vectors.md 2.7. -/
theorem test_step_luma : seen [0xBF, 0xF0] ⟨254, 254, 254, 255⟩ 5 = some ([⟨36, 29, 21, 255⟩], 16, ⟨36, 29, 21, 255⟩) := by decide
theorem test_step_luma_wraps : seen [0x80, 0x00] ⟨0, 0, 0, 9⟩ 51 = some ([⟨216, 224, 216, 9⟩], 16, ⟨216, 224, 216, 9⟩) := by decide
/-- 95_test_vectors.md 2.4. -/
theorem test_step_rgb : seen [0xFE, 1, 2, 3] ⟨5, 5, 5, 0⟩ 34 = some ([⟨1, 2, 3, 0⟩], 18, ⟨1, 2, 3, 0⟩) := by decide
theorem test_step_rgba : seen [0xFF, 1, 2, 3, 4] ⟨5, 5, 5, 0⟩ 14 = some ([⟨1, 2, 3, 4⟩], 19, ⟨1, 2, 3, 4⟩) := by decide
/-- 95_test_vectors.md 2.5: `cache[0]` holds a pixel, slot 5 is zero, INDEX 5 overwrites slot 0. -/
theorem test_step_index :
    (nextOf (step { chunkState [0x05] ⟨1, 1, 1, 1⟩ with cache := (chunkState [] ⟨0, 0, 0, 0⟩).cache.set 0 ⟨128, 128, 128, 128⟩ })).map
      (fun t => (t.out.stream, t.prev, t.cache[0])) = some ([⟨0, 0, 0, 0⟩], ⟨0, 0, 0, 0⟩, ⟨0, 0, 0, 0⟩) := by decide
/-- INDEX 53 at the start of a decode (95_test_vectors.md 2.5). -/
theorem test_step_index_at_start : seen [0x35] ⟨0, 0, 0, 255⟩ 53 = some ([⟨0, 0, 0, 0⟩], 15, ⟨0, 0, 0, 0⟩) := by decide
/-- 95_test_vectors.md 2.8. -/
theorem test_step_run : (nextOf (step (chunkState [0xC3] ⟨10, 20, 30, 255⟩))).map
    (fun t => (t.out.stream, t.pixCount, t.chunkCount)) = some (List.replicate 4 ⟨10, 20, 30, 255⟩, 4, 1) := by decide
theorem test_step_run_first : seen [0xC0] ⟨0, 0, 0, 255⟩ 53 = some ([⟨0, 0, 0, 255⟩], 15, ⟨0, 0, 0, 255⟩) := by decide
/-- 95_test_vectors.md 2.9. -/
theorem test_step_trailer : (nextOf (step (chunkState [0, 0, 0, 0, 0, 0, 0, 1, 0xFF] ⟨0, 0, 0, 255⟩))).map
    (fun t => (t.status, t.pos, t.out.stream)) = some (.done, 22, []) := by decide
theorem test_step_missing_trailer : (nextOf (step (chunkState [] ⟨0, 0, 0, 255⟩))).map
    (fun t => (t.status, errorWord t.error, t.errPos, t.pos)) = some (.error, 4, 14, 14) := by decide
/-- Program P5 of 95_test_vectors.md. -/
theorem test_step_truncated : (nextOf (step (chunkState [0xFE, 1, 2] ⟨0, 0, 0, 255⟩))).map
    (fun t => (t.status, errorWord t.error, t.errPos, t.pos, t.prev)) = some (.error, 2, 14, 14, ⟨0, 0, 0, 255⟩) := by decide
/-- 95_test_vectors.md 2.3: an empty input. -/
theorem test_step_empty_header : (nextOf (step State.reset.startDecode)).map
    (fun t => (t.status, errorWord t.error, t.errPos)) = some (.error, 2, 0) := by decide

/-- A run whose sink takes two of its four pixels waits with the third offered and nothing committed (20_memory.md R75). -/
theorem test_run_waits :
    (nextOf (step { chunkState [0xC3] ⟨1, 2, 3, 4⟩ with out := ⟨[], .limited 2, 0, none⟩ })).map
      (fun t => (t.out, t.pos, t.chunkCount)) =
    some (⟨[⟨1, 2, 3, 4⟩, ⟨1, 2, 3, 4⟩], .limited 0, 2, some ⟨1, 2, 3, 4⟩⟩, 14, 0) := by decide

/-- The state that fetches a word runs it as the first instruction after reset (log 5). -/
theorem test_fetch_word : (nextOf (step (State.reset.withFetchWord 32 0x4389A3FE))).map
    (fun t => (t.out.stream, t.pos)) = some ([⟨0xA3, 0x89, 0x43, 0⟩], 18) := by decide
theorem test_fetch_runs_each_row : [0x40, 0x00, 0x80, 0xFE, 0xFF, 0xC0].map
    (fun w => (nextOf (step (State.reset.withFetchWord 8 w))).map (fun t => (t.status, t.chunkCount))) =
    List.replicate 6 (some (.busy, 1)) := by decide

/-! The host's actions. -/

/-- START through the register, and `IN_LEN` refused while BUSY (10_state.md R36, R43). -/
theorem test_start : (nextOf (step { State.reset with schedule := [.host (.writeReg 0 4 1)] })).map
    (fun t => (t.status, t.prev)) = some (.busy, ⟨0, 0, 0, 255⟩) := by decide
theorem test_in_len_while_busy :
    (nextOf (step { State.reset.startDecode with schedule := [.host (.writeReg 0x10 4 7)] })).map (fun t => t.inLen) = some 0 := by
  decide
/-- `HDR_FMT` with channels 7 and colorspace 0xFF reads 0x0001FF07 (95_test_vectors.md 2.3). -/
theorem test_read_hdr_fmt :
    (nextOf (step { State.reset with status := .done, hdrFmt := ⟨0x07, 0xFF, true⟩, schedule := [.host (.readReg 0x20 4)] })).map
      (fun t => t.readData) = some 0x0001FF07 := by decide
/-- The hash table of 95_test_vectors.md 2.2. -/
theorem test_hash : pixelHash ⟨255, 255, 255, 255⟩ = 38 ∧ pixelHash ⟨0xA3, 0x89, 0x43, 0xFF⟩ = 32 ∧
    pixelHash ⟨128, 128, 128, 128⟩ = 0 ∧ pixelHash ⟨9, 9, 9, 9⟩ = 42 := by decide

/-! Witnesses: for each statement with hypotheses, values that meet them, one for each clause, at a boundary where there is
one. -/

/-- A state that the chunk-boundary step is enabled in. -/
theorem chunkState_enabled (bytes : List Byte) (prev : Pixel) : (chunkState bytes prev).Enabled .chunks := ⟨rfl, rfl, rfl⟩

/-- It takes any number of pixels. -/
theorem chunkState_ready (bytes : List Byte) (prev : Pixel) (k : Nat) : (chunkState bytes prev).Ready k := ⟨rfl, rfl⟩

/-- A header step's state over these bytes. -/
def headerState (bytes : List Byte) : State :=
  { State.reset.startDecode with inLen := BitVec.ofNat 32 bytes.length, input := Memory.writeList [] 0 bytes }

theorem headerState_enabled (bytes : List Byte) : (headerState bytes).Enabled .header := ⟨rfl, rfl, rfl⟩

/-- The fourteen bytes of a header with the machine's own SIGNATURE. -/
def goodHeader : List Byte := bytesOfWord Config.signature ++ [0, 0, 0, 1, 0, 0, 0, 2, 3, 0]

theorem goodHeader_holds : (headerState goodHeader).Holds 0 goodHeader := by
  intro k hk
  have h14 : k < 14 := hk
  interval_cases k <;> rfl

/-- The bytes `SIGNATURE` less one bit, which differ from SIGNATURE. -/
def badSignature : List Byte := bytesOfWord (Config.signature ^^^ 1)

theorem badSignature_ne : badSignature.take 4 ≠ bytesOfWord Config.signature := by
  intro h
  have h0 : (Config.signature ^^^ 1).extractLsb' 0 8 = Config.signature.extractLsb' 0 8 := by
    simpa [badSignature, bytesOfWord] using congrArg (fun l => l.getD 3 0) h
  have := congrArg (fun b : Byte => b.getLsbD 0) h0
  simp at this

/-- The schedule's head is one host action. -/
def hostState (s : State) (action : HostAction) : State := { s with schedule := [.host action] }

theorem witness_DecodeOfEncodeIsTheInstruction :
    ((Instr.run 61).wf = true ∧ (Instr.run 61).isChunk = true ∧ (encode 0 (.run 61) ++ [1]).take 8 ≠ trailerBytes) ∧
    Instr.trailer.wf = true ∧ (Instr.header 1 2 3 4).wf = true := by decide

theorem witness_DecodedBytesBeginWithTheEncoding :
    decodeChunk [0xFD, 7] = .ok (.run 61) ∧
    decodeHeader 0x01020304 [1, 2, 3, 4, 0, 0, 0, 5, 0, 0, 0, 7, 3, 1, 9] = .ok (.header 5 7 3 1) := by decide

theorem witness_ChunkBoundaryPriority :
    ([0, 0, 0, 0, 0, 0, 0, 1] : List Byte).take 8 = [0, 0, 0, 0, 0, 0, 0, 1] ∧
    (([0xBF] : List Byte).take 8 ≠ [0, 0, 0, 0, 0, 0, 0, 1] ∧ ([0xBF] : List Byte).length < 2) ∧
    (([0xFE, 1, 2] : List Byte).take 8 ≠ [0, 0, 0, 0, 0, 0, 0, 1] ∧ ([0xFE, 1, 2] : List Byte).length < 4) ∧
    (([0xFF, 1, 2, 3] : List Byte).take 8 ≠ [0, 0, 0, 0, 0, 0, 0, 1] ∧ ([0xFF, 1, 2, 3] : List Byte).length < 5) ∧
    (([0x00] : List Byte).take 8 ≠ [0, 0, 0, 0, 0, 0, 0, 1] ∧ 1 ≤ ([0x00] : List Byte).length) := by decide

/-- Each range of the map at its two ends. -/
theorem witness_OpcodeMap :
    ((0x00 : Byte).toNat < 0x40 ∧ ([0x00, 1, 2, 3, 4] : List Byte).take 8 ≠ [0, 0, 0, 0, 0, 0, 0, 1]) ∧
    (0x3F : Byte).toNat < 0x40 ∧ 0x40 ≤ (0x40 : Byte).toNat ∧ (0x7F : Byte).toNat < 0x80 ∧ 0x80 ≤ (0x80 : Byte).toNat ∧
    (0xBF : Byte).toNat < 0xC0 ∧ 0xC0 ≤ (0xC0 : Byte).toNat ∧ (0xFD : Byte).toNat < 0xFE ∧ (0xFE : Byte).toNat = 0xFE ∧
    (0xFF : Byte).toNat = 0xFF := by decide

theorem witness_HeaderTestPriority :
    ([1, 2, 3] : List Byte).length < 4 ∧
    (4 ≤ ([9, 2, 3, 4] : List Byte).length ∧ ([9, 2, 3, 4] : List Byte).take 4 ≠ bytesOfWord 0x01020304) ∧
    (4 ≤ ([1, 2, 3, 4] : List Byte).length ∧ ([1, 2, 3, 4] : List Byte).take 4 = bytesOfWord 0x01020304 ∧
      ([1, 2, 3, 4] : List Byte).length < 14) ∧
    (([1, 2, 3, 4, 0, 0, 0, 0, 0, 0, 0, 0, 0, 0] : List Byte).take 4 = bytesOfWord 0x01020304 ∧
      14 ≤ ([1, 2, 3, 4, 0, 0, 0, 0, 0, 0, 0, 0, 0, 0] : List Byte).length) := by decide

/-- Both sides of each range. -/
theorem witness_AssemblerSyntax :
    (63 ≤ 63 ∧ ¬ 64 ≤ 63) ∧ (-2 ≤ (-2 : Int) ∧ ¬ -2 ≤ (-3 : Int)) ∧ ((31 : Int) ≤ 31 ∧ ¬ (32 : Int) ≤ 31) := by decide

/-- No run, one run, and one more pixel than the longest run. -/
theorem witness_PseudoInstructionsExpand :
    assemble (.repeatPrev 0) = none ∧ 1 ≤ 1 ∧ assemble (.repeatPrev 63) = some ([61, 0].map Instr.run) := by decide

/-- 6 is the least width of the adder. -/
theorem witness_HashOfAPixel : 6 ≤ 6 := by decide

/-- A sink that takes one pixel and no more is ready for DIFF, LUMA, RGB, RGBA and INDEX (and for the statements about
equivalent chunks). -/
theorem witness_one_pixel_chunks : ({ State.reset with out := ⟨[], .limited 1, 0, none⟩ } : State).Ready 1 := ⟨rfl, rfl⟩

theorem witness_IndexEffect :
    ([0x00, 1] : List Byte).take 8 ≠ [0, 0, 0, 0, 0, 0, 0, 1] ∧
    cachedPixel 5 State.reset.cache = ⟨0, 0, 0, 0⟩ ∧ pixelHash (cachedPixel 0 State.reset.cache) = 0 ∧
    (pixelHash ⟨0, 0, 0, 0⟩ = 0 ∧ cachedPixel 0 State.reset.cache = State.reset.prev) ∧
    (State.reset.startDecode.prev = ⟨0, 0, 0, 255⟩ ∧
      State.reset.startDecode.cache = Vector.replicate 64 ⟨0, 0, 0, 0⟩) := by decide

/-- The longest run with a sink that takes exactly its pixels, a first chunk, a later one, and both reserved bytes. -/
theorem witness_RunEffect :
    ((61 : BitVec 6).toNat < 62 ∧ ({ State.reset with out := ⟨[], .limited 62, 0, none⟩ } : State).Ready 62) ∧
    State.reset.startDecode.prev = ⟨0, 0, 0, 255⟩ ∧
    State.reset.cache[(pixelHash State.reset.prev).toNat]'(pixelHash State.reset.prev).isLt = State.reset.prev ∧
    254 ≤ (0xFE : Byte).toNat ∧ 254 ≤ (0xFF : Byte).toNat :=
  ⟨⟨by decide, rfl, rfl⟩, rfl, by decide, by decide, by decide⟩

theorem witness_ReservedRunRaises : 62 ≤ (62 : BitVec 6).toNat ∧ 62 ≤ (63 : BitVec 6).toNat := by decide

theorem witness_TrailerEffect : 8 ≤ trailerBytes.length ∧ trailerBytes.take 8 = [0, 0, 0, 0, 0, 0, 0, 1] := by decide

/-- Each clause of the header step: three bytes, a wrong signature, a good one cut at thirteen bytes, a whole header. -/
theorem witness_HeaderStep :
    ((headerState [1, 2, 3]).Holds 0 [1, 2, 3] ∧ (headerState [1, 2, 3]).inLen.toNat < 4) ∧
    ((headerState badSignature).Holds 0 badSignature ∧ 4 ≤ (headerState badSignature).inLen.toNat ∧
      badSignature.take 4 ≠ bytesOfWord Config.signature) ∧
    ((headerState (goodHeader.take 13)).Holds 0 (goodHeader.take 13) ∧
      (goodHeader.take 13).take 4 = bytesOfWord Config.signature ∧ (headerState (goodHeader.take 13)).inLen.toNat < 14) ∧
    ((headerState goodHeader).Enabled .header ∧ (headerState goodHeader).pos = 0 ∧
      goodHeader.length = (headerState goodHeader).inLen.toNat ∧ (headerState goodHeader).Holds 0 goodHeader ∧
      goodHeader = bytesOfWord Config.signature ++ 0 :: 0 :: 0 :: 1 :: 0 :: 0 :: 0 :: 2 :: 3 :: 0 :: []) := by
  refine ⟨⟨?_, by decide⟩, ⟨?_, by decide, badSignature_ne⟩, ⟨?_, rfl, by decide⟩, headerState_enabled _, rfl, rfl, goodHeader_holds, rfl⟩
  · intro k hk
    have h3 : k < 3 := hk
    interval_cases k <;> rfl
  · intro k hk
    have h4 : k < 4 := hk
    interval_cases k <;> rfl
  · intro k hk
    have h13 : k < 13 := hk
    interval_cases k <;> rfl

/-- A well-formed chunk with a ready sink, for the statements about every chunk; it also answers a next state. -/
theorem witness_every_chunk :
    (Instr.run 61).isChunk = true ∧ (Instr.run 61).wf = true ∧
    (chunkState [] ⟨1, 2, 3, 4⟩).Ready (chunkPixels (.run 61) ⟨1, 2, 3, 4⟩ (chunkState [] ⟨1, 2, 3, 4⟩).cache).length ∧
    ∃ t, exec (.run 61) (chunkState [] ⟨1, 2, 3, 4⟩) = .next t ∧ t.Ready 1 ∧ pixelHash t.prev ≠ 0 :=
  ⟨rfl, rfl, ⟨rfl, rfl⟩, _, rfl, ⟨rfl, rfl⟩, by decide⟩

/-- A sink that takes none of a one-pixel chunk, and one that takes one of two pixels that are left. -/
theorem witness_BlockedChunkWaits :
    Sink.accepts (.limited 0) (1 - 0) < 1 - 0 ∧ Sink.accepts (.limited 1) (62 - 60) < 62 - 60 := by decide

/-- A run paused after one pixel, and the state it then ends in. -/
theorem witness_PausedChunkEndsTheSame :
    ∃ t u, (chunkState [] ⟨1, 2, 3, 4⟩).out.sent = 0 ∧ Paused (.run 3) (chunkState [] ⟨1, 2, 3, 4⟩) t ∧ t.out.sent = 1 ∧
      exec (.run 3) { t with out := { t.out with sink := .accepting } } = .next u :=
  ⟨_, _, rfl, .pause 1 .start (by decide) rfl, rfl, rfl⟩

theorem witness_EquivalentChunks :
    State.reset.Ready 1 ∧
    State.reset.cache[(pixelHash State.reset.prev).toNat]'(pixelHash State.reset.prev).isLt = State.reset.prev ∧
    State.reset.startDecode.Ready 1 ∧ State.reset.startDecode.prev = ⟨0, 0, 0, 255⟩ ∧
    State.reset.startDecode.cache = Vector.replicate 64 ⟨0, 0, 0, 0⟩ :=
  ⟨⟨rfl, rfl⟩, by decide, ⟨rfl, rfl⟩, rfl, rfl⟩

theorem witness_AlphaOfEveryChunk :
    (∀ slot, Instr.diff 0 0 0 ≠ .index slot) ∧ (∀ r g b a, Instr.diff 0 0 0 ≠ .rgba r g b a) := by
  constructor <;> intros <;> simp

theorem witness_StepRunsTheDecodedChunk :
    (chunkState [0x40] ⟨0, 0, 0, 255⟩).Enabled .chunks ∧
    ([0x40] : List Byte).length = min 8 ((chunkState [0x40] ⟨0, 0, 0, 255⟩).inLen.toNat - (chunkState [0x40] ⟨0, 0, 0, 255⟩).pos.toNat) ∧
    (chunkState [0x40] ⟨0, 0, 0, 255⟩).Holds 14 [0x40] ∧ decodeChunk [0x40] = .ok (.diff 0 0 0) := by
  refine ⟨chunkState_enabled _ _, by decide, ?_, by decide⟩
  intro k hk
  have h1 : k < 1 := hk
  interval_cases k
  rfl

theorem witness_StepRunsTheDecodedHeader :
    (headerState goodHeader).Enabled .header ∧ goodHeader.length = min 14 (headerState goodHeader).inLen.toNat ∧
    (headerState goodHeader).Holds 0 goodHeader ∧ decodeHeader Config.signature goodHeader = .ok (.header 1 2 3 0) := by
  refine ⟨headerState_enabled _, rfl, goodHeader_holds, ?_⟩
  simp only [goodHeader, bytesOfWord, List.cons_append, List.nil_append, decodeHeader, wordOfBytes_bytesOfWord, if_true]
  decide

/-- A chunk cut short, and a header cut short. -/
theorem witness_ErrorEntry :
    ((chunkState [0xBF] ⟨0, 0, 0, 255⟩).Enabled .chunks ∧ (chunkState [0xBF] ⟨0, 0, 0, 255⟩).Holds 14 [0xBF] ∧
      decodeChunk [0xBF] = .error .truncated) ∧
    ((headerState []).Enabled .header ∧ (headerState []).Holds 0 [] ∧
      decodeHeader Config.signature [] = .error .truncated) := by
  refine ⟨⟨chunkState_enabled _ _, ?_, by decide⟩, headerState_enabled _, ?_, rfl⟩
  · intro k hk
    have h1 : k < 1 := hk
    interval_cases k
    rfl
  · intro k hk
    exact absurd hk (Nat.not_lt_zero k)

theorem witness_EndedBlockStays :
    (State.reset.status ≠ .busy ∧ State.reset.schedule = []) ∧
    ({ State.reset with schedule := [.block] } : State).schedule = .block :: [] := by decide

/-- A placed buffer, at the end of its input and before it. -/
theorem witness_ChunkStepMakesProgress :
    ∃ s : State, s.Enabled .chunks ∧ s.Loaded ∧ s.out.sink = .accepting ∧ s.pos.toNat ≤ s.inLen.toNat := by
  refine ⟨{ chunkState [] ⟨0, 0, 0, 255⟩ with pos := 0, inLen := 1, input := [(0, 0x40)] }, ⟨rfl, rfl, rfl⟩, ?_, rfl, by decide⟩
  intro addr h
  have h1 : addr < 1 := h
  interval_cases addr
  rfl

theorem witness_EveryDecodeEnds :
    (headerState goodHeader).Enabled .header ∧ (headerState goodHeader).pos = 0 ∧ (headerState goodHeader).Loaded ∧
    (headerState goodHeader).out.sink = .accepting := by
  refine ⟨headerState_enabled _, rfl, ?_, rfl⟩
  intro addr h
  have h14 : addr < 14 := h
  interval_cases addr <;> rfl

theorem witness_MachineComputesTheDecode :
    (headerState goodHeader).schedule = [] ∧ goodHeader.length = (headerState goodHeader).inLen.toNat ∧
    (headerState goodHeader).Holds 0 goodHeader ∧ (headerState goodHeader).out.sink = .accepting :=
  ⟨rfl, rfl, goodHeader_holds, rfl⟩

theorem witness_BlockNeverStopsOnAPlacedBuffer : State.reset.schedule = [] ∧ State.reset.Loaded :=
  ⟨rfl, fun _ h => absurd h (Nat.not_lt_zero _)⟩

/-- Another buffer that differs from the ninth byte on, and beyond `IN_LEN`. -/
theorem witness_StepReadsEightBytes :
    ∃ (s t : State) (m : Memory), s.Enabled .chunks ∧ m ≠ s.input ∧
      (∀ k < 8, s.pos.toNat + k < s.inLen.toNat → m.read (s.pos.toNat + k) = s.input.read (s.pos.toNat + k)) ∧
      step s = .next t :=
  ⟨chunkState [0x40] ⟨0, 0, 0, 255⟩, _, [(14, 0x40), (15, 7)], chunkState_enabled _ _, by decide, by decide, rfl⟩

theorem witness_HeaderFieldsDoNotAffectDecoding :
    ∃ t, (chunkState [0x40] ⟨0, 0, 0, 255⟩).Enabled .chunks ∧ step (chunkState [0x40] ⟨0, 0, 0, 255⟩) = .next t :=
  ⟨_, chunkState_enabled _ _, rfl⟩

theorem witness_EarlierRegisterValuesAreKept : ∃ t, Instr.rgb 1 2 3 ≠ .trailer ∧ exec (.rgb 1 2 3) State.reset = .next t :=
  ⟨_, by decide, rfl⟩

theorem witness_StateChangesOnlyAsTheRulesSay :
    ∃ t, step (hostState State.reset (.writeReg 0 4 1)) = .next t ∧ t.status ≠ State.reset.status :=
  ⟨_, rfl, by decide⟩

/-- A power-on reset in a decode, and a step of a decode (for `PowerOnLeavesThePlatform` as well). -/
theorem witness_PowerOnReset :
    (hostState (chunkState [] ⟨0, 0, 0, 255⟩) .powerOn).schedule = .host .powerOn :: [] ∧
    (chunkState [0x40] ⟨0, 0, 0, 255⟩).status = .busy ∧ ∃ t, step (chunkState [0x40] ⟨0, 0, 0, 255⟩) = .next t :=
  ⟨rfl, rfl, _, rfl⟩

/-- For `StartLeavesTheOutput` as well. -/
theorem witness_StartInitialisesTheDecode :
    (hostState State.reset (.writeReg 0 4 1)).schedule = .host (.writeReg 0x00 4 1) :: [] ∧
    (1 : Word).getLsbD 0 = true ∧ (hostState State.reset (.writeReg 0 4 1)).status ≠ .busy := by decide

theorem witness_ControlRegister :
    ((1 : Word).getLsbD 0 = true ∧ (hostState State.reset (.writeReg 0 4 1)).status ≠ .busy) ∧
    ((hostState State.reset.startDecode (.writeReg 0 4 1)).schedule = .host (.writeReg 0x00 4 1) :: [] ∧
      (hostState State.reset.startDecode (.writeReg 0 4 1)).status = .busy) ∧
    (2 : Word).getLsbD 0 = false ∧ (3 : Word).getLsbD 0 = (1 : Word).getLsbD 0 ∧
    (hostState State.reset (.readReg 0 4)).schedule = .host (.readReg 0x00 4) :: [] ∧
    ∃ t, step (hostState State.reset.startDecode (.writeReg 0x10 4 1)) = .next t :=
  ⟨⟨by decide, by decide⟩, ⟨rfl, rfl⟩, by decide, by decide, rfl, _, rfl⟩

theorem witness_InputLengthRegister :
    (hostState State.reset.startDecode (.writeReg 0x10 4 5)).status = .busy ∧
    (hostState State.reset (.writeReg 0x10 4 5)).status ≠ .busy ∧
    (hostState State.reset (.readReg 0x10 4)).schedule = .host (.readReg 0x10 4) :: [] ∧
    (∃ t, step (hostState State.reset (.writeReg 0 4 1)) = .next t) ∧ ∃ t, step (hostState State.reset .powerOn) = .next t :=
  ⟨rfl, by decide, rfl, ⟨_, rfl⟩, _, rfl⟩

theorem witness_ReadOnlyWritesHaveNoEffect :
    (hostState State.reset (.writeReg 0xFC 4 5)).schedule = .host (.writeReg 0xFC 4 5) :: [] ∧
    0xFC % 4 = 0 ∧ 0xFC < 0x100 ∧ 0xFC ≠ 0x00 ∧ 0xFC ≠ 0x10 := by decide

theorem witness_RegisterMapReads :
    (hostState State.reset (.readReg 0xFC 4)).status ≠ .busy ∧
    (hostState State.reset (.readReg 0xFC 4)).schedule = .host (.readReg 0xFC 4) :: [] ∧
    0xFC % 4 = 0 ∧ 0xFC < 0x100 ∧ 0x30 ≤ 0xFC ∧ 0x30 ≤ 0x30 := by decide

theorem witness_BusyReadIsAHeldValue :
    (hostState State.reset.startDecode (.readReg 0x2C 4)).status = .busy ∧
    (hostState State.reset.startDecode (.readReg 0x2C 4)).schedule = .host (.readReg 0x2C 4) :: [] ∧
    0x2C % 4 = 0 ∧ 0x2C < 0x100 ∧ (0x30 ≤ 0x30 ∧ 0x30 % 4 = 0) ∧ (0x30 ≤ 0xFC ∧ 0xFC % 4 = 0 ∧ 0xFC < 0x100) := by decide

theorem witness_OtherAccessesAreRefused :
    (2 ≠ 4 ∨ 0x04 % 4 ≠ 0) ∧ (4 ≠ 4 ∨ 0x05 % 4 ≠ 0) ∧
    (hostState State.reset (.writeReg 4 2 0)).schedule = .host (.writeReg 4 2 0) :: [] ∧
    (hostState State.reset (.readReg 5 4)).schedule = .host (.readReg 5 4) :: [] := by decide

/-- A change of the last byte below `IN_LEN` while BUSY; a load while not BUSY, one at `IN_LEN`, one of the same value. -/
theorem witness_PlacingABufferByte :
    ((chunkState [0x40] ⟨0, 0, 0, 255⟩).status = .busy ∧
      (14 : Word).toNat < (chunkState [0x40] ⟨0, 0, 0, 255⟩).inLen.toNat ∧
      (chunkState [0x40] ⟨0, 0, 0, 255⟩).input.read (14 : Word).toNat ≠ some 7) ∧
    State.reset.status ≠ .busy ∧ (chunkState [0x40] ⟨0, 0, 0, 255⟩).inLen.toNat ≤ (15 : Word).toNat ∧
    (chunkState [0x40] ⟨0, 0, 0, 255⟩).input.read (14 : Word).toNat = some 0x40 := by decide

/-- The state right after a START meets the invariant, and its step answers a next state. -/
theorem witness_StepKeepsTheInvariant : Inv State.reset.startDecode ∧ ∃ t, step State.reset.startDecode = .next t := by
  have zero : ∀ slot : BitVec 6, State.reset.startDecode.cache[slot.toNat]'slot.isLt = Pixel.zero := by
    intro slot
    simp
  refine ⟨?_, _, rfl⟩
  constructor
  case slots => exact fun _ slot => .inl (zero slot)
  case memory => exact reset_memory_wf
  case moments => exact fun _ => rfl
  case header => exact fun _ => ⟨rfl, rfl, by simp⟩
  all_goals simp [State.reset]

/-- An input of a header and one DIFF, placed in a machine that the host starts. -/
def loadedState : State :=
  { State.reset with inLen := 15, input := Memory.writeList [] 0 (goodHeader ++ [0x6A]), schedule := [.host (.writeReg 0 4 1)] }

/-- The three states of its decode: right after the START, after the header, after the DIFF. -/
theorem loadedState_decode :
    ∃ t0 t1 t2, step loadedState = .next t0 ∧ t0.status = .busy ∧ step t0 = .next t1 ∧ t1.status = .busy ∧
      t1.chunkCount = t0.chunkCount ∧ t1.chunkWindow = .ok [0x6A] ∧ t1.prev = ⟨0, 0, 0, 255⟩ ∧
      step t1 = .next t2 ∧ t2.chunkCount = t1.chunkCount + 1 ∧ t2.status = .busy ∧ t2.moments = [t1.moment, t0.moment] := by
  have header : decodeHeader Config.signature goodHeader = .ok (.header 1 2 3 0) :=
    witness_StepRunsTheDecodedHeader.2.2.2
  have read : ∀ t : State, step loadedState = .next t → step t = exec (.header 1 2 3 0) t := by
    rintro t ⟨⟩
    have window : State.headerWindow (State.startDecode { loadedState with schedule := [] }) = .ok goodHeader := rfl
    exact (step_header ⟨rfl, rfl, rfl⟩ window).trans (by rw [header]; rfl)
  refine ⟨_, _, _, rfl, rfl, read _ rfl, rfl, rfl, rfl, rfl, rfl, rfl, rfl, rfl⟩

/-- A decode with one commit, a sequence of commits, and the all-zero cache before them. -/
theorem witness_CacheHoldsTheLastCommitted :
    (∃ t, InDecode [⟨0, 0, 0, 255⟩] [⟨0, 0, 0, 255⟩] t) ∧
    State.reset.cache = Vector.replicate 64 ⟨0, 0, 0, 0⟩ ∧ ([(⟨1, 2, 3, 4⟩, 1, 1)] : List (Pixel × Nat × Nat)) ≠ [] := by
  refine ⟨?_, by decide⟩
  obtain ⟨t0, t1, t2, h0, b0, h1, b1, c1, w1, p1, h2, c2, b2, _⟩ := loadedState_decode
  refine ⟨t2, ?_⟩
  have kept : InDecode [] [] t1 := .other (.start (by decide) h0 b0) b0 h1 c1 (by rw [b1]; decide)
  have pixels : chunkPixels (.diff 2 2 2) t1.prev t1.cache = [⟨0, 0, 0, 255⟩] := by
    rw [p1]
    rfl
  simpa only [pixels, List.nil_append] using
    InDecode.commit (i := .diff 2 2 2) (p := ⟨0, 0, 0, 255⟩) kept b1 w1 (by decide) (by rw [pixels]; rfl) h2 c2 b2

/-- A run that has kept two moments. -/
theorem witness_HeldMomentsAreOfThisDecode :
    loadedState.moments = [] ∧ ∃ t, core.run 3 loadedState = .next t ∧ t.status = .busy ∧ t.moments ≠ [] := by
  refine ⟨rfl, ?_⟩
  obtain ⟨t0, t1, t2, h0, _, h1, _, _, _, _, h2, _, b2, m2⟩ := loadedState_decode
  exact ⟨t2, by rw [run_succ _ h0, run_succ _ h1, run_succ _ h2]; rfl, b2, by rw [m2]; simp⟩

end Sys2Proof.Tests
end

/-! SUPPORT. The host's register accesses and the moves of the block, said once each; then the two statements about CTRL and
`IN_LEN` (10_state.md R36, R43). -/

namespace Sys2Proof.Machine

/-! Register writes. -/

theorem step_writeReg {s : State} {offset : Nat} {value : Word} {rest : List Move}
    (h : s.schedule = .host (.writeReg offset 4 value) :: rest) (hd : definedAccess offset 4 = true) :
    step s = .next (({ s with schedule := rest } : State).writeRegister offset value) := by
  rw [step_of_host h]
  simp only [hostAct, hd, if_true]

/-- A write that the machine answers is a defined one. -/
theorem definedAccess_of_step_writeReg {s t : State} {offset bytes : Nat} {value : Word} {rest : List Move}
    (h : s.schedule = .host (.writeReg offset bytes value) :: rest) (ht : step s = .next t) :
    definedAccess offset bytes = true := by
  rw [step_of_host h] at ht
  simp only [hostAct] at ht
  split at ht
  · assumption
  · cases ht

theorem writeRegister_ctrl (value : Word) (s : State) :
    s.writeRegister 0x00 value = if value.getLsbD 0 = true ∧ s.status ≠ .busy then s.startDecode else s := rfl

theorem writeRegister_inLen (value : Word) (s : State) :
    s.writeRegister 0x10 value = if s.status ≠ .busy then { s with inLen := value } else s := rfl

theorem writeRegister_other {offset : Nat} (h0 : offset ≠ 0x00) (h10 : offset ≠ 0x10) (value : Word) (s : State) :
    s.writeRegister offset value = s := by
  rw [State.writeRegister, if_neg h0, if_neg h10]

/-- What a defined write can do: begin a decode, write `IN_LEN`, or nothing. -/
theorem writeRegister_cases (offset : Nat) (value : Word) (s : State) :
    (offset = 0x00 ∧ value.getLsbD 0 = true ∧ s.status ≠ .busy ∧ s.writeRegister offset value = s.startDecode) ∨
    (offset = 0x10 ∧ s.status ≠ .busy ∧ s.writeRegister offset value = { s with inLen := value }) ∨
    s.writeRegister offset value = s := by
  rcases eq_or_ne offset 0x00 with rfl | h0
  · by_cases hv : value.getLsbD 0 = true ∧ s.status ≠ .busy
    · exact .inl ⟨rfl, hv.1, hv.2, if_pos hv⟩
    · exact .inr (.inr (if_neg hv))
  rcases eq_or_ne offset 0x10 with rfl | h10
  · by_cases hs : s.status ≠ .busy
    · exact .inr (.inl ⟨rfl, hs, if_pos hs⟩)
    · exact .inr (.inr (if_neg hs))
  · exact .inr (.inr (writeRegister_other h0 h10 value s))

/-- While BUSY no register write has an effect. -/
theorem writeRegister_of_busy {s : State} (hs : s.status = .busy) (offset : Nat) (value : Word) :
    s.writeRegister offset value = s := by
  rcases writeRegister_cases offset value s with ⟨_, _, hb, _⟩ | ⟨_, hb, _⟩ | h
  · exact absurd hs hb
  · exact absurd hs hb
  · exact h

/-- A defined write while BUSY uses up the host's move and does nothing else. -/
theorem step_writeReg_of_busy {s : State} {offset : Nat} {value : Word} {rest : List Move}
    (h : s.schedule = .host (.writeReg offset 4 value) :: rest) (hd : definedAccess offset 4 = true)
    (hs : s.status = .busy) : step s = .next { s with schedule := rest } := by
  rw [step_writeReg h hd, writeRegister_of_busy (s := { s with schedule := rest }) hs]

/-- A write of CTRL keeps `IN_LEN`. -/
theorem writeRegister_ctrl_inLen (value : Word) (s : State) : (s.writeRegister 0x00 value).inLen = s.inLen := by
  rcases writeRegister_cases 0x00 value s with ⟨_, _, _, h⟩ | ⟨h, _, _⟩ | h
  · rw [h, startDecode_inLen]
  · cases h
  · rw [h]

/-- No register write leads to IDLE. -/
theorem status_idle_of_writeRegister {s : State} {offset : Nat} {value : Word}
    (hi : (s.writeRegister offset value).status = .idle) : s.status = .idle := by
  rcases writeRegister_cases offset value s with ⟨_, _, _, h⟩ | ⟨_, _, h⟩ | h <;> rw [h] at hi
  · cases hi
  · exact hi
  · exact hi

/-! Register reads. -/

theorem step_readReg {s : State} {offset : Nat} {rest : List Move}
    (h : s.schedule = .host (.readReg offset 4) :: rest) (hd : definedAccess offset 4 = true) :
    step s = .next (({ s with schedule := rest } : State).readRegister offset) := by
  rw [step_of_host h]
  simp only [hostAct, hd, if_true]

@[simp] theorem registerAt_ctrl (s : State) (m : Moment) : s.registerAt m 0x00 = 0 := rfl

@[simp] theorem registerAt_inLen (s : State) (m : Moment) : s.registerAt m 0x10 = s.inLen := rfl

/-! The block's moves. -/

@[simp] theorem emitAndCommit_status (e : List Pixel) (p : Pixel) (n : Nat) (s : State) :
    (s.emitAndCommit e p n).status = s.status := by
  rcases emitAndCommit_cases e p n s with ⟨_, h⟩ | ⟨_, h⟩ <;> simp [h]

/-- Everything a move of the block can lead to from `s`, each with its guards: outside BUSY the block stays; the header step
raises or takes the header in; the chunk-boundary step raises, ends the decode, or emits and commits a chunk. -/
inductive BlockMove (s : State) : State → Prop where
  | stays (notBusy : s.status ≠ .busy) : BlockMove s s
  | headerRaises {bytes : List Byte} {kind : FormatError} (busy : s.status = .busy) (phase : s.phase = .header)
      (window : s.headerWindow = .ok bytes) (rejected : decodeHeader Config.signature bytes = .error kind) :
      BlockMove s (s.raise kind)
  | takesHeader {bytes : List Byte} {width height : Word} {channels colorspace : Byte} (busy : s.status = .busy)
      (phase : s.phase = .header) (window : s.headerWindow = .ok bytes)
      (decoded : decodeHeader Config.signature bytes = .ok (.header width height channels colorspace))
      (inside : 14 ≤ s.inLen.toNat) :
      BlockMove s { s with
        hdrWidth := width
        hdrHeight := height
        hdrFmt := ⟨channels, colorspace, true⟩
        phase := .chunks
        pos := 14
        moments := s.moment :: s.moments }
  | chunkRaises {bytes : List Byte} {kind : FormatError} (busy : s.status = .busy) (phase : s.phase = .chunks)
      (window : s.chunkWindow = .ok bytes) (rejected : decodeChunk bytes = .error kind) :
      BlockMove s (s.raise kind)
  | ends {bytes : List Byte} (busy : s.status = .busy) (phase : s.phase = .chunks)
      (window : s.chunkWindow = .ok bytes) (decoded : decodeChunk bytes = .ok .trailer)
      (inside : s.pos.toNat + 8 ≤ s.inLen.toNat) :
      BlockMove s { s with pos := s.pos + 8, status := .done }
  | runsChunk {bytes : List Byte} {i : Instr} (busy : s.status = .busy) (phase : s.phase = .chunks)
      (window : s.chunkWindow = .ok bytes) (decoded : decodeChunk bytes = .ok i) (isChunk : i.isChunk = true)
      (wf : i.wf = true) (inside : s.pos.toNat + i.byteLength ≤ s.inLen.toNat) :
      BlockMove s (s.emitAndCommit (chunkPixels i s.prev s.cache)
        ((chunkPixels i s.prev s.cache).getLast?.getD s.prev) i.byteLength)

theorem blockMove_of_blockStep {s t : State} (h : blockStep s = .next t) : BlockMove s t := by
  by_cases hs : s.status = .busy
  swap
  · rw [blockStep_of_not_busy hs] at h
    cases h
    exact .stays hs
  cases hp : s.phase with
  | header =>
    rw [blockStep_of_header hs hp] at h
    cases hw : s.headerWindow with
    | error f => rw [headerStep, hw] at h; cases h
    | ok bytes =>
      rcases headerStep_cases hw with ⟨kind, hd, h'⟩ | ⟨_, _, _, _, hd, hl, h'⟩ <;> rw [h'] at h <;> cases h
      · exact .headerRaises hs hp hw hd
      · exact .takesHeader hs hp hw hd hl
  | chunks =>
    rw [blockStep_of_chunks hs hp] at h
    cases hw : s.chunkWindow with
    | error f => rw [chunkStep, hw] at h; cases h
    | ok bytes =>
      rcases chunkStep_cases hw with ⟨kind, hd, h'⟩ | ⟨hd, hl, h'⟩ | ⟨i, hd, hc, hwf, hl, h'⟩ <;> rw [h'] at h <;> cases h
      · exact .chunkRaises hs hp hw hd
      · exact .ends hs hp hw hd hl
      · exact .runsChunk hs hp hw hd hc hwf hl

/-! Only a power-on reset leads to IDLE. -/

theorem status_idle_of_blockStep {s t : State} (h : blockStep s = .next t) (hi : t.status = .idle) : s.status = .idle := by
  cases blockMove_of_blockStep h with
  | stays _ => exact hi
  | headerRaises => cases hi
  | takesHeader => exact hi
  | chunkRaises => cases hi
  | ends => cases hi
  | runsChunk => rwa [emitAndCommit_status] at hi

theorem status_idle_of_hostAct {action : HostAction} {s t : State} (h : hostAct action s = .next t)
    (hi : t.status = .idle) : s.status = .idle ∨ action = .powerOn := by
  cases action with
  | writeReg offset bytes value =>
    simp only [hostAct] at h
    split at h <;> cases h
    exact .inl (status_idle_of_writeRegister hi)
  | readReg offset bytes =>
    simp only [hostAct] at h
    split at h <;> cases h
    exact .inl hi
  | load addr value =>
    simp only [hostAct] at h
    split at h <;> cases h
    exact .inl hi
  | setSink sink => cases h; exact .inl hi
  | powerOn => exact .inr rfl

theorem status_idle_of_step {s t : State} (h : step s = .next t) (hi : t.status = .idle) :
    s.status = .idle ∨ ∃ later, s.schedule = .host .powerOn :: later := by
  match hsch : s.schedule with
  | [] => exact .inl (status_idle_of_blockStep ((step_of_schedule_nil hsch).symm.trans h) hi)
  | .block :: rest =>
    exact .inl (status_idle_of_blockStep (s := { s with schedule := rest }) ((step_of_block hsch).symm.trans h) hi)
  | .host action :: rest =>
    rcases status_idle_of_hostAct ((step_of_host hsch).symm.trans h) hi with hs | rfl
    · exact .inl hs
    · exact .inr ⟨rest, rfl⟩

/-! Where a step faults: on a byte below `IN_LEN` that nobody has placed, and nowhere else (20_memory.md R70). -/

/-- `f` is the fault of reading a buffer byte below `IN_LEN` that nobody has placed. -/
def State.MissesByte (s : State) (f : Fault) : Prop :=
  ∃ addr, f = .neverLoaded addr ∧ addr < s.inLen.toNat ∧ s.input.read addr = none

theorem missesByte_of_readBytes {s : State} {addr n : Nat} {f : Fault} (below : ∀ k < n, addr + k < s.inLen.toNat)
    (h : s.readBytes addr n = .error f) : s.MissesByte f := by
  obtain ⟨k, hk, hf⟩ := readBytes_error h
  obtain ⟨rfl, missing⟩ := readByte_error (below k hk) hf
  exact ⟨addr + k, rfl, below k hk, missing⟩

theorem runDecoded_ne_fault (decoded : Except FormatError Instr) (s : State) (f : Fault) :
    s.runDecoded decoded ≠ .fault f := by
  cases decoded with
  | error kind => exact nofun
  | ok i =>
    obtain ⟨t, ht⟩ := exec_next i s
    simp [State.runDecoded, ht]

theorem missesByte_of_blockStep {s : State} {f : Fault} (h : blockStep s = .fault f) : s.MissesByte f := by
  by_cases hs : s.status = .busy
  swap
  · rw [blockStep_of_not_busy hs] at h
    cases h
  cases hp : s.phase with
  | header =>
    rw [blockStep_of_header hs hp, headerStep] at h
    cases hw : s.headerWindow with
    | ok bytes => rw [hw] at h; exact absurd h (runDecoded_ne_fault _ s f)
    | error g =>
      rw [hw] at h
      cases h
      exact missesByte_of_readBytes (fun k hk => by omega) hw
  | chunks =>
    rw [blockStep_of_chunks hs hp, chunkStep] at h
    cases hw : s.chunkWindow with
    | ok bytes => rw [hw] at h; exact absurd h (runDecoded_ne_fault _ s f)
    | error g =>
      rw [hw] at h
      cases h
      exact missesByte_of_readBytes (fun _ hk => chunkWindow_below hk) hw

theorem hostAct_ne_fault (action : HostAction) (s : State) (f : Fault) : hostAct action s ≠ .fault f := by
  intro h
  cases action with
  | writeReg offset bytes value => simp only [hostAct] at h; split at h <;> cases h
  | readReg offset bytes => simp only [hostAct] at h; split at h <;> cases h
  | load addr value => simp only [hostAct] at h; split at h <;> cases h
  | setSink sink => cases h
  | powerOn => cases h

theorem missesByte_of_step {s : State} {f : Fault} (h : step s = .fault f) : s.MissesByte f := by
  match hsch : s.schedule with
  | [] => exact missesByte_of_blockStep ((step_of_schedule_nil hsch).symm.trans h)
  | .block :: rest => exact missesByte_of_blockStep (s := { s with schedule := rest }) ((step_of_block hsch).symm.trans h)
  | .host action :: rest => exact absurd ((step_of_host hsch).symm.trans h) (hostAct_ne_fault action _ f)

theorem step_ne_beyondInLen (s : State) (addr : Nat) : step s ≠ .fault (.beyondInLen addr) := by
  intro h
  obtain ⟨_, hf, _⟩ := missesByte_of_step h
  cases hf

/-! The statements. -/

/-- Settles O49: the clauses about writes are the cases of `writeRegister`, and the last one holds because only a power-on
reset leads to IDLE. -/
theorem controlRegister : Obligations.ControlRegister := by
  refine ⟨rfl, fun s value rest => ⟨?start, ?busy, ?clear, ?otherBits, ?read, ?anyWrite, ?leavesBusy⟩⟩
  case start =>
    intro h hv hs
    exact ⟨_, by rw [step_writeReg h rfl, writeRegister_ctrl, if_pos ⟨hv, hs⟩], rfl, rfl, rfl⟩
  case busy => exact fun h hs => step_writeReg_of_busy h rfl hs
  case clear =>
    intro h hv
    rw [step_writeReg h rfl, writeRegister_ctrl, if_neg fun hstart => Bool.false_ne_true (hv.symm.trans hstart.1)]
  case otherBits =>
    intro other hv h
    rw [step_writeReg h rfl, step_writeReg rfl rfl, writeRegister_ctrl, writeRegister_ctrl, hv]
  case read =>
    intro h
    exact ⟨_, step_readReg h rfl, by simp⟩
  case anyWrite =>
    intro offset t h hs ht
    rw [step_writeReg_of_busy h (definedAccess_of_step_writeReg h ht) hs] at ht
    cases ht
    rfl
  case leavesBusy =>
    intro t hs ht
    cases hts : t.status with
    | busy => exact .inl rfl
    | done => exact .inr (.inl rfl)
    | error => exact .inr (.inr (.inl rfl))
    | idle =>
      have reset := (status_idle_of_step ht hts).resolve_left (by simp [hs])
      exact .inr (.inr (.inr reset))

/-- Settles O50: the clauses about accesses are the register rules, and the bound holds because every fault of a step is at a
byte below `IN_LEN`. -/
theorem inputLengthRegister : Obligations.InputLengthRegister := by
  refine fun s value rest => ⟨?busy, ?write, ?read, ?start, ?reset, step_ne_beyondInLen s⟩
  case busy => exact fun h hs => step_writeReg_of_busy h rfl hs
  case write =>
    intro h hs
    rw [step_writeReg h rfl, writeRegister_inLen, if_pos hs]
  case read =>
    intro h
    exact ⟨_, step_readReg h rfl, by simp, rfl⟩
  case start =>
    intro t h ht
    rw [step_writeReg h rfl] at ht
    cases ht
    exact writeRegister_ctrl_inLen value _
  case reset =>
    intro t h ht
    rw [step_of_host h] at ht
    cases ht
    rfl

end Sys2Proof.Machine

/-! SUPPORT. Bytes and their fields as numbers, the opcode map of the first byte, and the rows of the assembler's table; then
the statements about the map, the assembler and RGBA (30_encoding.md R106, R112, R118). -/

namespace Sys2Proof

/-! Bytes and their fields as numbers (00_scope.md R7). -/

theorem toNat_append_eq_add {m n : Nat} (x : BitVec m) (y : BitVec n) : (x ++ y).toNat = x.toNat * 2 ^ n + y.toNat := by
  rw [BitVec.toNat_append, ← Nat.shiftLeft_add_eq_or_of_lt y.isLt, Nat.shiftLeft_eq]

theorem toNat_extractLsb'_eq_div {n : Nat} (start len : Nat) (x : BitVec n) :
    (x.extractLsb' start len).toNat = x.toNat / 2 ^ start % 2 ^ len := by
  rw [BitVec.extractLsb'_toNat, Nat.shiftRight_eq_div_pow]

theorem low6_toNat (b0 : Byte) : (low6 b0).toNat = b0.toNat % 64 := by
  simp [low6]

/-- DIFF's three fields fill the low six bits. -/
theorem low6_toNat_eq_deltas (b0 : Byte) : (low6 b0).toNat =
    16 * (b0.extractLsb' 4 2).toNat + 4 * (b0.extractLsb' 2 2).toNat + (b0.extractLsb' 0 2).toNat := by
  simp only [low6_toNat, toNat_extractLsb'_eq_div]
  omega

theorem toNat_eq_nibbles (b : Byte) : b.toNat = 16 * (b.extractLsb' 4 4).toNat + (b.extractLsb' 0 4).toNat := by
  have := b.isLt
  simp only [toNat_extractLsb'_eq_div]
  omega

/-! The opcode map (30_encoding.md R112). -/

/-- The ranges of the first byte, one for each kind. -/
theorem classify_eq_ite (b0 : Byte) : classify b0 = .ok
    (if b0.toNat < 0x40 then .index else if b0.toNat < 0x80 then .diff else if b0.toNat < 0xC0 then .luma
      else if b0.toNat < 0xFE then .run else if b0.toNat = 0xFE then .rgb else .rgba) := by
  revert b0; decide

/-- Only a first byte 0 can begin the trailer; any other is decoded by its kind. -/
theorem decodeChunk_of_toNat_pos {b0 : Byte} (h : 0 < b0.toNat) (later : List Byte) {kind : Kind}
    (hk : classify b0 = .ok kind) : decodeChunk (b0 :: later) = chunkFields kind b0 later :=
  decodeChunk_cons (take_ne_trailer later (by rintro rfl; cases h)) hk

theorem decodeChunk_rgba (later : List Byte) : decodeChunk (0xFF :: later) = chunkFields .rgba 0xFF later :=
  decodeChunk_of_toNat_pos (by decide) later (by decide)

/-- RGBA's four literal bytes must all be there (41_chunk_step.md R164). -/
theorem chunkFields_rgba_of_length_lt (b0 : Byte) {later : List Byte} (h : later.length < 4) :
    chunkFields .rgba b0 later = .error .truncated := by
  match later, h with
  | [], _ => rfl
  | [_], _ => rfl
  | [_, _], _ => rfl
  | [_, _, _], _ => rfl
  | _ :: _ :: _ :: _ :: rest, h => simp only [List.length_cons] at h; omega

end Sys2Proof

namespace Sys2Proof.Machine

/-- Where the sink takes all its pixels, a well-formed chunk completes and commits the last of them. -/
theorem exec_chunk_committed {i : Instr} (hc : i.isChunk = true) (hw : i.wf = true) {s : State}
    (hr : s.Ready (chunkPixels i s.prev s.cache).length) :
    ∃ t, exec i s = .next t ∧ Committed s t (chunkPixels i s.prev s.cache)
      ((chunkPixels i s.prev s.cache).getLast?.getD s.prev) i.byteLength :=
  ⟨_, exec_chunk hc hw s, emitAndCommit_committed hr _ _⟩

/-! Raw fields of the assembler's operands (30_encoding.md R110). -/

/-- `rawField` with its range written as the least and the greatest operand. -/
theorem rawField_eq_ite {w : Nat} {bias low high : Int} (hlow : low + bias = 0) (hhigh : high + bias + 1 = 2 ^ w)
    (value : Int) :
    rawField w bias value = if low ≤ value ∧ value ≤ high then some (BitVec.ofInt w (value + bias)) else none :=
  if_congr (by omega) rfl rfl

/-- An unsigned operand is its own raw field. -/
theorem rawField_natCast {w high : Nat} (hhigh : high + 1 = 2 ^ w) (value : Nat) :
    rawField w 0 value = if value ≤ high then some (BitVec.ofNat w value) else none := by
  rw [rawField_eq_ite (low := 0) (high := high) rfl (by exact_mod_cast hhigh), Int.add_zero, BitVec.ofInt_natCast]
  exact if_congr (by omega) rfl rfl

theorem bind_ite_none {α β : Type} (P : Prop) [Decidable P] (x : α) (f : α → Option β) :
    ((if P then some x else none) >>= f) = if P then f x else none := by
  split <;> rfl

/-! The rows of the assembler's table: the range of the operands and the instruction (30_encoding.md R118). -/

theorem assemble_rgb (r g b : Nat) : assemble (.rgb r g b) =
    if r ≤ 255 ∧ g ≤ 255 ∧ b ≤ 255 then some [.rgb (BitVec.ofNat 8 r) (BitVec.ofNat 8 g) (BitVec.ofNat 8 b)] else none := by
  simp only [assemble, rawField_natCast (w := 8) (high := 255) rfl, bind_ite_none, Option.pure_def]
  simp only [ite_and]

theorem assemble_rgba (r g b a : Nat) : assemble (.rgba r g b a) =
    if r ≤ 255 ∧ g ≤ 255 ∧ b ≤ 255 ∧ a ≤ 255 then
      some [.rgba (BitVec.ofNat 8 r) (BitVec.ofNat 8 g) (BitVec.ofNat 8 b) (BitVec.ofNat 8 a)]
    else none := by
  simp only [assemble, rawField_natCast (w := 8) (high := 255) rfl, bind_ite_none, Option.pure_def]
  simp only [ite_and]

theorem assemble_index (i : Nat) : assemble (.index i) = if i ≤ 63 then some [.index (BitVec.ofNat 6 i)] else none := by
  simp only [assemble, rawField_natCast (w := 6) (high := 63) rfl, bind_ite_none, Option.pure_def]

theorem assemble_diff (dr dg db : Int) : assemble (.diff dr dg db) =
    if (-2 ≤ dr ∧ dr ≤ 1) ∧ (-2 ≤ dg ∧ dg ≤ 1) ∧ (-2 ≤ db ∧ db ≤ 1) then
      some [.diff (BitVec.ofInt 2 (dr + 2)) (BitVec.ofInt 2 (dg + 2)) (BitVec.ofInt 2 (db + 2))]
    else none := by
  simp only [assemble, rawField_eq_ite (w := 2) (bias := 2) (low := -2) (high := 1) rfl rfl, bind_ite_none, Option.pure_def]
  simp only [ite_and]

theorem assemble_luma (dg drdg dbdg : Int) : assemble (.luma dg drdg dbdg) =
    if (-32 ≤ dg ∧ dg ≤ 31) ∧ (-8 ≤ drdg ∧ drdg ≤ 7) ∧ (-8 ≤ dbdg ∧ dbdg ≤ 7) then
      some [.luma (BitVec.ofInt 6 (dg + 32)) (BitVec.ofInt 4 (drdg + 8)) (BitVec.ofInt 4 (dbdg + 8))]
    else none := by
  simp only [assemble, rawField_eq_ite (w := 6) (bias := 32) (low := -32) (high := 31) rfl rfl,
    rawField_eq_ite (w := 4) (bias := 8) (low := -8) (high := 7) rfl rfl, bind_ite_none, Option.pure_def]
  simp only [ite_and]

theorem assemble_run (n : Nat) :
    assemble (.run n) = if 1 ≤ n ∧ n ≤ 62 then some [.run (BitVec.ofNat 6 (n - 1))] else none := by
  simp only [assemble, runOfLength, bind_ite_none, Option.pure_def]

/-- The bytes of a row are the encoding of its instruction, which is needed in the row's range only. -/
theorem assembleBytes_of_row {sig : Word} {line : AsmLine} {P : Prop} [Decidable P] {i : Instr} {bytes : List Byte}
    (row : assemble line = if P then some [i] else none) (encoding : P → encode sig i = bytes) :
    assembleBytes sig line = if P then some bytes else none := by
  rw [assembleBytes, row]
  split
  · next h => simp [encoding h]
  · rfl

/-! The bytes of a row in its range. -/

theorem encode_index_ofNat (sig : Word) {i : Nat} (h : i ≤ 63) :
    encode sig (.index (BitVec.ofNat 6 i)) = [BitVec.ofNat 8 i] := by
  rw [encode, List.singleton_inj]
  apply BitVec.eq_of_toNat_eq
  simp only [toNat_append_eq_add, BitVec.toNat_ofNat]
  omega

theorem encode_run_ofNat (sig : Word) {n : Nat} (h1 : 1 ≤ n) (h62 : n ≤ 62) :
    encode sig (.run (BitVec.ofNat 6 (n - 1))) = [BitVec.ofNat 8 (192 + (n - 1))] := by
  rw [encode, List.singleton_inj]
  apply BitVec.eq_of_toNat_eq
  simp only [toNat_append_eq_add, BitVec.toNat_ofNat]
  omega

theorem encode_diff_ofInt (sig : Word) {dr dg db : Int} (hr : -2 ≤ dr ∧ dr ≤ 1) (hg : -2 ≤ dg ∧ dg ≤ 1)
    (hb : -2 ≤ db ∧ db ≤ 1) :
    encode sig (.diff (BitVec.ofInt 2 (dr + 2)) (BitVec.ofInt 2 (dg + 2)) (BitVec.ofInt 2 (db + 2))) =
      [BitVec.ofInt 8 (64 + 16 * (dr + 2) + 4 * (dg + 2) + (db + 2))] := by
  rw [encode, List.singleton_inj]
  apply BitVec.eq_of_toNat_eq
  simp only [toNat_append_eq_add, BitVec.toNat_ofNat, BitVec.toNat_ofInt]
  omega

theorem encode_luma_ofInt (sig : Word) {dg drdg dbdg : Int} (hg : -32 ≤ dg ∧ dg ≤ 31) (hr : -8 ≤ drdg ∧ drdg ≤ 7)
    (hb : -8 ≤ dbdg ∧ dbdg ≤ 7) :
    encode sig (.luma (BitVec.ofInt 6 (dg + 32)) (BitVec.ofInt 4 (drdg + 8)) (BitVec.ofInt 4 (dbdg + 8))) =
      [BitVec.ofInt 8 (128 + (dg + 32)), BitVec.ofInt 8 (16 * (drdg + 8) + (dbdg + 8))] := by
  rw [encode, List.cons.injEq, List.singleton_inj]
  constructor
  · apply BitVec.eq_of_toNat_eq
    simp only [toNat_append_eq_add, BitVec.toNat_ofNat, BitVec.toNat_ofInt]
    omega
  · apply BitVec.eq_of_toNat_eq
    simp only [toNat_append_eq_add, BitVec.toNat_ofInt]
    omega

/-! The statements. -/

/-- Settles O5: the range of the first byte tells the kind, and the kind's fields are the byte's digits. -/
theorem opcodeMap : Obligations.OpcodeMap := by
  refine fun b0 b1 b2 b3 b4 rest => ⟨?index, ?diff, ?luma, ?run, ?rgb, ?rgba⟩
  case index =>
    intro h noTrailer
    have kind : classify b0 = .ok .index := by rw [classify_eq_ite, if_pos h]
    exact ⟨_, decodeChunk_cons noTrailer kind, rfl, _, rfl, by rw [low6_toNat]; omega⟩
  case diff =>
    intro low high
    have kind : classify b0 = .ok .diff := by rw [classify_eq_ite, if_neg (by omega), if_pos high]
    have fields := low6_toNat_eq_deltas b0
    rw [low6_toNat] at fields
    exact ⟨_, decodeChunk_of_toNat_pos (by omega) _ kind, rfl, _, _, _, rfl, by omega⟩
  case luma =>
    intro low high
    have kind : classify b0 = .ok .luma := by rw [classify_eq_ite, if_neg (by omega), if_neg (by omega), if_pos high]
    exact ⟨_, decodeChunk_of_toNat_pos (by omega) _ kind, rfl, _, _, _, rfl,
      by rw [low6_toNat]; omega, toNat_eq_nibbles b1⟩
  case run =>
    intro low high
    have kind : classify b0 = .ok .run := by
      rw [classify_eq_ite, if_neg (by omega), if_neg (by omega), if_neg (by omega), if_pos high]
    exact ⟨_, decodeChunk_of_toNat_pos (by omega) _ kind, rfl, _, rfl, by rw [low6_toNat]; omega⟩
  case rgb =>
    intro h
    have kind : classify b0 = .ok .rgb := by rw [classify_eq_ite, h]; rfl
    exact ⟨_, decodeChunk_of_toNat_pos (by omega) _ kind, rfl, rfl⟩
  case rgba =>
    intro h
    have kind : classify b0 = .ok .rgba := by rw [classify_eq_ite, h]; rfl
    exact ⟨_, decodeChunk_of_toNat_pos (by omega) _ kind, rfl, rfl⟩

/-- Settles O8: each row of the assembler's table, with the bytes its fields make in the row's range. -/
theorem assemblerSyntax : Obligations.AssemblerSyntax := by
  refine fun sig => ⟨fun r g b => ?rgb, fun r g b a => ?rgba, fun i => ?index, fun dr dg db => ?diff,
    fun dg drdg dbdg => ?luma, fun n => ?run⟩
  case rgb => exact assembleBytes_of_row (assemble_rgb r g b) fun _ => rfl
  case rgba => exact assembleBytes_of_row (assemble_rgba r g b a) fun _ => rfl
  case index => exact assembleBytes_of_row (assemble_index i) (encode_index_ofNat sig)
  case diff => exact assembleBytes_of_row (assemble_diff dr dg db) fun ⟨hr, hg, hb⟩ => encode_diff_ofInt sig hr hg hb
  case luma => exact assembleBytes_of_row (assemble_luma dg drdg dbdg) fun ⟨hg, hr, hb⟩ => encode_luma_ofInt sig hg hr hb
  case run => exact assembleBytes_of_row (assemble_run n) fun ⟨hn, hn'⟩ => encode_run_ofNat sig hn hn'

/-- Settles O17: by the map's last row, and because a chunk with a ready sink completes. -/
theorem rgbaEffect : Obligations.RgbaEffect := by
  refine fun r g b a => ⟨fun rest => decodeChunk_rgba _, fun later short => ?truncated, fun s ready => ?completes⟩
  case truncated => rw [decodeChunk_rgba, chunkFields_rgba_of_length_lt _ short]
  case completes => exact exec_chunk_committed (i := .rgba r g b a) rfl rfl ready

end Sys2Proof.Machine

/-! SUPPORT. The header's tests on a byte list and the header step over the bytes of a placed buffer, and the chunk-boundary
step under other header registers; then the statements about the header step and the header's fields (40_header.md R140,
R141). -/

namespace Sys2Proof

/-! The header's tests, in the order of 40_header.md R140. -/

/-- Big-endian: each byte counts 256 times the one after it (20_memory.md R72). -/
theorem wordOfBytes_toNat (b0 b1 b2 b3 : Byte) :
    (wordOfBytes b0 b1 b2 b3).toNat = ((b0.toNat * 256 + b1.toNat) * 256 + b2.toNat) * 256 + b3.toNat := by
  simp only [wordOfBytes, toNat_append_eq_add, Nat.reducePow]

/-- Comparing the first word is comparing the first four bytes. -/
theorem wordOfBytes_eq_iff {b0 b1 b2 b3 : Byte} {w : Word} :
    wordOfBytes b0 b1 b2 b3 = w ↔ [b0, b1, b2, b3] = bytesOfWord w := by
  constructor
  · rintro rfl
    exact (bytesOfWord_wordOfBytes b0 b1 b2 b3).symm
  · intro h
    simp only [bytesOfWord, List.cons.injEq, and_true] at h
    obtain ⟨rfl, rfl, rfl, rfl⟩ := h
    exact wordOfBytes_bytesOfWord w

/-- Too few bytes for a signature. -/
theorem decodeHeader_of_length_lt_four (sig : Word) {bytes : List Byte} (h : bytes.length < 4) :
    decodeHeader sig bytes = .error .truncated := by
  match bytes, h with
  | [], _ => rfl
  | [_], _ => rfl
  | [_, _], _ => rfl
  | [_, _, _], _ => rfl
  | _ :: _ :: _ :: _ :: fields, h => simp only [List.length_cons] at h; omega

/-- The signature is compared before the later fields are asked for, so this holds whatever the length. -/
theorem decodeHeader_of_other_signature {sig : Word} {bytes : List Byte} (h4 : 4 ≤ bytes.length)
    (other : bytes.take 4 ≠ bytesOfWord sig) : decodeHeader sig bytes = .error .badSignature := by
  match bytes, h4 with
  | s0 :: s1 :: s2 :: s3 :: fields, _ => exact if_neg fun same => other (wordOfBytes_eq_iff.1 same)

/-- A header cut after the signature is truncated. -/
theorem decodeHeader_of_length_lt_fourteen {sig : Word} {bytes : List Byte} (same : bytes.take 4 = bytesOfWord sig)
    (short : bytes.length < 14) : decodeHeader sig bytes = .error .truncated := by
  unfold decodeHeader
  split
  · rw [if_pos (wordOfBytes_eq_iff.2 same)]
    split
    · simp only [List.length_cons] at short
      omega
    · rfl
  · rfl

theorem decodeHeader_complete (sig : Word) (w0 w1 w2 w3 h0 h1 h2 h3 channels colorspace : Byte) (rest : List Byte) :
    decodeHeader sig (bytesOfWord sig ++ w0 :: w1 :: w2 :: w3 :: h0 :: h1 :: h2 :: h3 :: channels :: colorspace :: rest) =
      .ok (.header (wordOfBytes w0 w1 w2 w3) (wordOfBytes h0 h1 h2 h3) channels colorspace) :=
  if_pos (wordOfBytes_bytesOfWord sig)

end Sys2Proof

namespace Sys2Proof.Machine

/-! The header step over the bytes of a placed buffer. -/

/-- The header window is the first fourteen of the bytes below `IN_LEN`. -/
theorem headerWindow_of_holds {s : State} {bytes : List Byte} (hl : bytes.length = s.inLen.toNat) (hh : s.Holds 0 bytes) :
    s.headerWindow = .ok (bytes.take 14) := by
  refine headerWindow_eq_ok.2 ⟨by rw [List.length_take, hl], fun k hk => ?_⟩
  rw [List.getElem_take]
  exact hh k _

/-- The header step decodes all the bytes below `IN_LEN` as it does its window. -/
theorem step_header_of_holds {s : State} {bytes : List Byte} (h : s.Enabled .header) (hl : bytes.length = s.inLen.toNat)
    (hh : s.Holds 0 bytes) : step s = s.runDecoded (decodeHeader Config.signature bytes) := by
  rw [step_header h (headerWindow_of_holds hl hh), decodeHeader_take]

/-- A raise at `POS` = 0, with every field it writes (60_exceptions.md R272). -/
theorem runDecoded_error_at_zero {s : State} (h0 : s.pos = 0) (kind : FormatError) :
    s.runDecoded (.error kind) = .next { s with error := some kind, errPos := 0, status := .error } := by
  rw [State.runDecoded, State.raise, h0]

/-! The chunk-boundary step under other header registers. -/

/-- The state with other values in the header registers, and in the earlier values of them that the model keeps for reads
(log 9). -/
def State.withHeader (width height : Word) (fmt : HdrFmt) (moments : List Moment) (s : State) : State :=
  { s with hdrWidth := width, hdrHeight := height, hdrFmt := fmt, moments := moments }

theorem chunkWindow_withHeader (width height : Word) (fmt : HdrFmt) (moments : List Moment) (s : State) :
    (s.withHeader width height fmt moments).chunkWindow = s.chunkWindow :=
  readBytes_congr fun _ _ => rfl

/-- The sink decides whether a chunk commits or waits, and neither end looks at the header registers but to keep them. -/
theorem emitAndCommit_withHeader (width height : Word) (fmt : HdrFmt) (moments : List Moment) (e : List Pixel) (p : Pixel)
    (n : Nat) (s : State) : ∃ later, (s.withHeader width height fmt moments).emitAndCommit e p n =
      (s.emitAndCommit e p n).withHeader width height fmt later := by
  rcases emitAndCommit_cases e p n s with ⟨all, h⟩ | ⟨fewer, h⟩ <;> rw [h]
  · exact ⟨_, if_pos all⟩
  · exact ⟨_, if_neg fewer.ne⟩

/-- The chunk-boundary step commutes with a change of the header registers (40_header.md R141). -/
theorem chunkStep_withHeader (width height : Word) (fmt : HdrFmt) (moments : List Moment) {s t : State}
    (h : chunkStep s = .next t) : ∃ later,
      chunkStep (s.withHeader width height fmt moments) = .next (t.withHeader width height fmt later) := by
  cases hw : s.chunkWindow with
  | error f => rw [chunkStep, hw] at h; cases h
  | ok bytes =>
    have run : chunkStep (s.withHeader width height fmt moments) =
        (s.withHeader width height fmt moments).runDecoded (decodeChunk bytes) := by
      rw [chunkStep, chunkWindow_withHeader, hw]
    rw [run]
    rcases chunkStep_cases hw with ⟨kind, hd, h'⟩ | ⟨hd, _, h'⟩ | ⟨i, hd, hc, hwf, _, h'⟩ <;> rw [h'] at h <;> cases h <;>
      rw [hd]
    · exact ⟨moments, rfl⟩
    · exact ⟨moments, rfl⟩
    · obtain ⟨later, same⟩ := emitAndCommit_withHeader width height fmt moments (chunkPixels i s.prev s.cache)
        ((chunkPixels i s.prev s.cache).getLast?.getD s.prev) i.byteLength s
      exact ⟨later, (exec_chunk hc hwf _).trans (congrArg _ same)⟩

theorem step_of_enabled_chunks {s : State} (h : s.Enabled .chunks) : step s = chunkStep s := by
  rw [step_of_schedule_nil h.schedule, blockStep_of_chunks h.status h.phase]

theorem step_withHeader (width height : Word) (fmt : HdrFmt) (moments : List Moment) {s t : State}
    (enabled : s.Enabled .chunks) (h : step s = .next t) : ∃ later,
      step (s.withHeader width height fmt moments) = .next (t.withHeader width height fmt later) := by
  have enabled' : (s.withHeader width height fmt moments).Enabled .chunks :=
    ⟨enabled.schedule, enabled.status, enabled.phase⟩
  rw [step_of_enabled_chunks enabled] at h
  rw [step_of_enabled_chunks enabled']
  exact chunkStep_withHeader width height fmt moments h

/-! The statements. -/

/-- Settles O23: the step runs the decode of the bytes below `IN_LEN`, which answers by the header's tests in their order.
(`headerStep` is the model's own name for the step.) -/
theorem headerStep_onPlacedBuffer : Obligations.HeaderStep := by
  intro s bytes enabled hpos hl hh
  have run := step_header_of_holds enabled hl hh
  rw [← hl]
  refine ⟨?short, ?otherSignature, ?cut, ?complete⟩
  case short =>
    intro short
    rw [run, decodeHeader_of_length_lt_four _ short, runDecoded_error_at_zero hpos]
  case otherSignature =>
    intro h4 other
    rw [run, decodeHeader_of_other_signature h4 other, runDecoded_error_at_zero hpos]
  case cut =>
    intro _ same short
    rw [run, decodeHeader_of_length_lt_fourteen same short, runDecoded_error_at_zero hpos]
  case complete =>
    intro w0 w1 w2 w3 h0 h1 h2 h3 channels colorspace rest hb
    rw [hb, decodeHeader_complete] at run
    exact ⟨_, run, wordOfBytes_toNat w0 w1 w2 w3, wordOfBytes_toNat h0 h1 h2 h3, rfl, rfl, rfl, enabled.status,
      rfl, rfl, rfl, rfl, rfl, rfl, rfl, rfl, rfl, rfl⟩

/-- Settles O41: the step under other header registers is the same step, but for these registers and their kept values. -/
theorem headerFieldsDoNotAffectDecoding : Obligations.HeaderFieldsDoNotAffectDecoding := by
  intro s t width height fmt enabled h
  obtain ⟨later, same⟩ := step_withHeader width height fmt s.moments enabled h
  exact ⟨_, same, rfl, rfl, rfl, rfl, rfl, rfl, rfl, rfl, rfl, rfl, rfl, rfl⟩

end Sys2Proof.Machine

/-! SUPPORT. The pixels that hash to a slot and the last of them, and what a step does to the cache while BUSY; then the
statements about the hash, the channel sums, the commit, the cache and the trailer (41_chunk_step.md R161, R165, R170 to
R173). -/

namespace Sys2Proof.Machine

/-! The last pixel that hashes to a slot. -/

/-- The last of the pixels that hashes to the slot, the zero pixel if none does (41_chunk_step.md R172). -/
def lastHashedTo (pixels : List Pixel) (slot : BitVec 6) : Pixel :=
  ((pixels.filter (fun p => pixelHash p = slot)).getLast?).getD Pixel.zero

@[simp] theorem lastHashedTo_nil (slot : BitVec 6) : lastHashedTo [] slot = Pixel.zero := rfl

/-- Copies of one pixel after the others count as that pixel, in its own slot only. -/
theorem lastHashedTo_append_replicate (pixels : List Pixel) (p : Pixel) (k : Nat) (slot : BitVec 6) :
    lastHashedTo (pixels ++ List.replicate (k + 1) p) slot =
      if slot = pixelHash p then p else lastHashedTo pixels slot := by
  by_cases h : slot = pixelHash p
  · simp [lastHashedTo, h, List.getLast?_append, List.getLast?_replicate]
  · simp [lastHashedTo, h, Ne.symm h]

/-- The last pixel of all is the last one of its own slot. -/
theorem lastHashedTo_pixelHash {pixels : List Pixel} {p : Pixel} (last : pixels.getLast? = some p) :
    lastHashedTo pixels (pixelHash p) = p := by
  obtain ⟨before, rfl⟩ := List.getLast?_eq_some_iff.1 last
  simpa using lastHashedTo_append_replicate before p 0 (pixelHash p)

/-! The cache as the history of such pixels. -/

/-- Every slot holds the last of the pixels that hashes to it, or the zero pixel (41_chunk_step.md R172). -/
def Cache.HoldsLast (cache : Cache) (pixels : List Pixel) : Prop :=
  ∀ slot : BitVec 6, cache[slot.toNat]'slot.isLt = lastHashedTo pixels slot

theorem holdsLast_replicate_zero : Cache.HoldsLast (Vector.replicate 64 Pixel.zero) [] := by
  intro slot
  rw [Vector.getElem_replicate, lastHashedTo_nil]

/-- One commit accounts for any number of copies of its pixel. -/
theorem Cache.HoldsLast.commit {cache : Cache} {pixels : List Pixel} (h : cache.HoldsLast pixels) (p : Pixel)
    (k : Nat) : (cacheWith cache p).HoldsLast (pixels ++ List.replicate (k + 1) p) := by
  intro slot
  rw [cacheWith_get, lastHashedTo_append_replicate, h slot]

/-- A cache that holds the last pixels holds the very last one in its slot. -/
theorem Cache.HoldsLast.get_pixelHash {cache : Cache} {pixels : List Pixel} (h : cache.HoldsLast pixels) {p : Pixel}
    (last : pixels.getLast? = some p) : cache[(pixelHash p).toNat]'(pixelHash p).isLt = p := by
  rw [h, lastHashedTo_pixelHash last]

/-! A chunk's pixels. -/

/-- A chunk's pixels are copies of its last one: all kinds but RUN produce one pixel only. -/
theorem chunkPixels_eq_replicate {i : Instr} {prev : Pixel} {cache : Cache} {p : Pixel}
    (last : (chunkPixels i prev cache).getLast? = some p) : ∃ k, chunkPixels i prev cache = List.replicate (k + 1) p := by
  cases i with
  | run runRaw =>
    have hp : prev = p := by simpa [chunkPixels, runPixels, runLength, List.getLast?_replicate] using last
    exact ⟨runRaw.toNat, hp ▸ rfl⟩
  | trailer => cases last
  | header => cases last
  | _ => cases last; exact ⟨0, rfl⟩

/-! What a step does to a decode that has begun and is not reset. -/

/-- Outside BUSY only a START leads to BUSY. -/
theorem startDecode_of_step {s t : State} (before : s.status ≠ .busy) (h : step s = .next t) (after : t.status = .busy) :
    ∃ rest, t = ({ s with schedule := rest } : State).startDecode := by
  rcases step_course h with noCommit | ⟨_, chunk⟩ | header | ⟨rest, _, started⟩ | ⟨_, rfl⟩
  · exact absurd (noCommit.busy after) before
  · exact absurd chunk.busy before
  · exact absurd header.busy before
  · exact ⟨rest, started⟩
  · cases after

/-- While BUSY a step that does not reset commits the chunk at `POS`, or keeps `prev`, the cache and `CHUNK_COUNT`. -/
theorem commitsChunk_or_kept_of_step {s t : State} (busy : s.status = .busy) (h : step s = .next t)
    (noReset : t.status ≠ .idle) :
    (∃ i, CommitsChunk s t i) ∨ (t.prev = s.prev ∧ t.cache = s.cache ∧ t.chunkCount = s.chunkCount) := by
  rcases step_course h with noCommit | chunk | header | ⟨_, notBusy, _⟩ | ⟨_, rfl⟩
  · exact .inr ⟨noCommit.prev, noCommit.cache, noCommit.chunkCount⟩
  · exact .inl chunk
  · exact .inr ⟨header.prev, header.cache, header.chunkCount⟩
  · exact absurd busy notBusy
  · exact absurd rfl noReset

/-! The cache along a decode. -/

/-- The cache and `prev` agree with what the chunks so far have committed and produced (41_chunk_step.md R172). -/
structure HistoryKept (committed produced : List Pixel) (s : State) : Prop where
  ofCommitted : s.cache.HoldsLast committed
  ofProduced : s.cache.HoldsLast produced
  prev : committed ≠ [] → committed.getLast? = some s.prev

theorem historyKept_startDecode (s : State) : HistoryKept [] [] s.startDecode :=
  ⟨holdsLast_replicate_zero, holdsLast_replicate_zero, fun h => absurd rfl h⟩

/-- A commit of a chunk's last pixel keeps the histories of the committed and of the produced pixels together. -/
theorem HistoryKept.commit {committed produced : List Pixel} {s t : State} (kept : HistoryKept committed produced s)
    {i : Instr} {p : Pixel} (last : (chunkPixels i s.prev s.cache).getLast? = some p) (prev : t.prev = p)
    (cache : t.cache = cacheWith s.cache p) :
    HistoryKept (committed ++ [p]) (produced ++ chunkPixels i s.prev s.cache) t := by
  obtain ⟨k, copies⟩ := chunkPixels_eq_replicate last
  refine ⟨?_, ?_, fun _ => ?_⟩
  · rw [cache]
    exact kept.ofCommitted.commit p 0
  · rw [cache, copies]
    exact kept.ofProduced.commit p k
  · rw [prev, List.getLast?_concat]

theorem historyKept_of_inDecode {committed produced : List Pixel} {t : State} (h : InDecode committed produced t) :
    HistoryKept committed produced t := by
  induction h with
  | start before begun after =>
    obtain ⟨rest, rfl⟩ := startDecode_of_step before begun after
    exact historyKept_startDecode _
  | commit _ busy window decoded last next counted going kept =>
    rcases commitsChunk_or_kept_of_step busy next (by simp [going]) with ⟨j, chunk⟩ | ⟨_, _, same⟩
    · obtain ⟨bytes, window', decoded'⟩ := chunk.window
      cases window.symm.trans window'
      cases decoded.symm.trans decoded'
      have prev := chunk.prev
      rw [last, Option.getD_some] at prev
      exact kept.commit last prev (prev ▸ chunk.cache)
    · exact absurd (counted.symm.trans same) (by simp)
  | other _ busy next counted noReset kept =>
    rcases commitsChunk_or_kept_of_step busy next noReset with ⟨_, chunk⟩ | ⟨prev, cache, _⟩
    · exact absurd (chunk.chunkCount.symm.trans counted) (by simp)
    · exact ⟨cache ▸ kept.ofCommitted, cache ▸ kept.ofProduced, prev ▸ kept.prev⟩

/-! The cache after any sequence of commits. -/

/-- The state after commits, each with its pixel, its length and its number of pixels. -/
def State.commits (cs : List (Pixel × Nat × Nat)) (s : State) : State :=
  cs.foldl (fun u c => u.commit c.1 c.2.1 c.2.2) s

theorem commits_concat (cs : List (Pixel × Nat × Nat)) (c : Pixel × Nat × Nat) (s : State) :
    s.commits (cs ++ [c]) = (s.commits cs).commit c.1 c.2.1 c.2.2 := by
  simp [State.commits]

theorem commits_prev (cs : List (Pixel × Nat × Nat)) (s : State) (h : cs ≠ []) :
    (cs.map (·.1)).getLast? = some (s.commits cs).prev := by
  obtain ⟨before, c, rfl⟩ := (List.eq_nil_or_concat' cs).resolve_left h
  simp [commits_concat]

theorem holdsLast_commits (cs : List (Pixel × Nat × Nat)) {s : State} (zero : s.cache = Vector.replicate 64 Pixel.zero) :
    (s.commits cs).cache.HoldsLast (cs.map (·.1)) := by
  induction cs using List.reverseRecOn with
  | nil => exact zero ▸ holdsLast_replicate_zero
  | append_singleton cs c ih =>
    rw [commits_concat, commit_cache, List.map_append]
    exact ih.commit c.1 0

/-! Channel sums (41_chunk_step.md R173). -/

theorem wrap8_toNat (x : Int) : ((wrap8 x).toNat : Int) = x % 256 := by
  rw [wrap8, BitVec.toNat_ofInt]
  omega

/-- The 8-bit addition drops the carry that the integer sum loses modulo 256. -/
theorem addDelta_eq_add (c : Byte) (delta : Int) : addDelta c delta = c + BitVec.ofInt 8 delta := by
  rw [addDelta, wrap8, BitVec.ofInt_add, BitVec.ofInt_natCast, BitVec.ofNat_toNat, BitVec.setWidth_eq]

/-! The statements. -/

/-- Settles O59: along a decode the cache agrees with the committed and the produced pixels, which a START begins and every
step keeps; so it does along any commits. -/
theorem cacheHoldsTheLastCommitted : Obligations.CacheHoldsTheLastCommitted := by
  refine ⟨?alongDecode, ?alongCommits, fun s => ⟨by rw [startDecode_prev]; decide, rfl, by simp, rfl⟩⟩
  case alongDecode =>
    intro committed produced t h
    have kept := historyKept_of_inDecode h
    exact ⟨fun slot => ⟨kept.ofCommitted slot, kept.ofProduced slot⟩,
      fun nonempty => ⟨kept.prev nonempty, kept.ofCommitted.get_pixelHash (kept.prev nonempty)⟩⟩
  case alongCommits =>
    rintro cs s t zero rfl
    have holds := holdsLast_commits cs zero
    exact ⟨holds, fun nonempty => holds.get_pixelHash (commits_prev cs s nonempty)⟩

/-- Settles O10: 64 divides every 2^n from n = 6 on, and the sum in six bits is the sum modulo 64. -/
theorem hashOfAPixel : Obligations.HashOfAPixel := by
  refine fun p => ⟨pixelHash_toNat p, ?bound, fun n hn => ?wider, ?sixBits⟩
  case bound =>
    have := p.r.isLt
    have := p.g.isLt
    have := p.b.isLt
    have := p.a.isLt
    omega
  case wider =>
    have divides : 64 ∣ 2 ^ n := pow_dvd_pow 2 hn
    rw [pixelHash_toNat, Nat.mod_mod_of_dvd _ divides]
  case sixBits =>
    simp only [pixelHash, BitVec.ofNat_add, BitVec.ofNat_mul, BitVec.ofNat_toNat]
    rfl

/-- Settles O11: by the sum of one channel; the pixels of DIFF and LUMA are made of such sums. -/
theorem channelsWrapModulo256 : Obligations.ChannelsWrapModulo256 :=
  ⟨fun c delta => ⟨wrap8_toNat _, addDelta_eq_add c delta⟩, fun _ _ _ _ => rfl, fun _ _ _ _ => rfl⟩

/-- Settles O24: a chunk has a last pixel, and with a ready sink the chunk completes and commits it. -/
theorem everyChunkCommitsOnce : Obligations.EveryChunkCommitsOnce := by
  intro i s hc hw ready
  obtain ⟨t, ht, committed⟩ := exec_chunk_committed hc hw ready
  have last := List.getLast?_eq_some_getLast (chunkPixels_ne_nil hc s.prev s.cache)
  rw [last, Option.getD_some] at committed
  exact ⟨t, _, ht, last, committed⟩

/-- Settles O21: of the decoder's answers only the trailer's own bytes give END, the fields of a kind being a chunk. -/
theorem trailerEffect : Obligations.TrailerEffect := by
  refine ⟨fun bytes => ⟨fun h => ⟨decodeChunk_byteLength_le h, ?bytes⟩, fun h => decodeChunk_trailer h.2⟩, fun s => rfl⟩
  rcases decodeChunk_cases bytes with ⟨trailer, _⟩ | ⟨_, h'⟩ | ⟨_, _, _, _, _, _, h'⟩
  · exact trailer
  · cases h.symm.trans h'
  · cases chunkFields_isChunk (h'.symm.trans h)

end Sys2Proof.Machine

/-! SUPPORT. The bytes of an RGB chunk; then the statement about RGB (42_literal_ops.md R190). -/

namespace Sys2Proof

theorem decodeChunk_rgb (later : List Byte) : decodeChunk (0xFE :: later) = chunkFields .rgb 0xFE later :=
  decodeChunk_of_toNat_pos (by decide) later (by decide)

/-- RGB's three literal bytes must all be there (41_chunk_step.md R164). -/
theorem chunkFields_rgb_of_length_lt (b0 : Byte) {later : List Byte} (h : later.length < 3) :
    chunkFields .rgb b0 later = .error .truncated := by
  match later, h with
  | [], _ => rfl
  | [_], _ => rfl
  | [_, _], _ => rfl
  | _ :: _ :: _ :: rest, h => simp only [List.length_cons] at h; omega

end Sys2Proof

namespace Sys2Proof.Machine

/-- Settles O16: the first byte alone tells the kind, whose fields need three more bytes; with a ready sink the chunk
completes and commits its one pixel. -/
theorem rgbEffect : Obligations.RgbEffect := by
  refine fun r g b => ⟨fun rest => decodeChunk_rgb _, fun later short => ?truncated, fun s ready => ?completes⟩
  case truncated => rw [decodeChunk_rgb, chunkFields_rgb_of_length_lt _ short]
  case completes => exact exec_chunk_committed (i := .rgb r g b) rfl rfl ready

end Sys2Proof.Machine

/-! SUPPORT. The byte of INDEX, and the slot of the committed pixel; then the statement about INDEX (43_cache_ops.md R210). -/

namespace Sys2Proof

/-- A 6-bit field alone in the low bits of a byte makes an INDEX byte with that field (30_encoding.md R103). -/
theorem classify_ofNat_index (slot : BitVec 6) : classify (BitVec.ofNat 8 slot.toNat) = .ok .index := by
  rw [classify_eq_ite, if_pos]
  rw [BitVec.toNat_ofNat]
  omega

theorem low6_ofNat (slot : BitVec 6) : low6 (BitVec.ofNat 8 slot.toNat) = slot := by
  apply BitVec.eq_of_toNat_eq
  rw [low6_toNat, BitVec.toNat_ofNat]
  omega

end Sys2Proof

namespace Sys2Proof.Machine

/-- After a commit the pixel's own slot holds it. -/
theorem Committed.get_pixelHash {s t : State} {e : List Pixel} {p : Pixel} {n : Nat} (h : Committed s t e p n) :
    t.cache[(pixelHash p).toNat]'(pixelHash p).isLt = p := by
  rw [h.slot, if_pos (pixelHash_toNat p)]

/-- A commit of the pixel that its slot already holds leaves the whole cache as it was. -/
theorem Committed.cache_eq_of_held {s t : State} {e : List Pixel} {p : Pixel} {n : Nat} (h : Committed s t e p n)
    (held : s.cache[(pixelHash p).toNat]'(pixelHash p).isLt = p) : t.cache = s.cache := by
  ext1 k hk
  have slot := h.slot (BitVec.ofNatLT k hk)
  simp only [BitVec.toNat_ofNatLT, ← pixelHash_toNat] at slot
  rw [slot]
  split
  · next same => subst same; exact held.symm
  · rfl

/-- Settles O18: the byte's field is the slot, and with a ready sink the chunk completes and commits the slot's pixel. The
corner cases of R210 are about that commit: where the pixel hashes to, and whether its slot held it already. -/
theorem indexEffect : Obligations.IndexEffect := by
  refine fun slot => ⟨fun rest noTrailer => ?decodes, fun s ready => ?completes⟩
  case decodes =>
    rw [decodeChunk_cons noTrailer (classify_ofNat_index slot), chunkFields, low6_ofNat]
  case completes =>
    obtain ⟨t, ht, committed⟩ := exec_chunk_committed (i := .index slot) rfl rfl ready
    change Committed s t [s.cache[slot.toNat]'slot.isLt] (s.cache[slot.toNat]'slot.isLt) 1 at committed
    refine ⟨t, ht, committed, fun zero => ?zeroSlot, fun home => ?ownSlot, fun _ held => ?copiesPrev,
      fun start empty _ => ?startOfDecode⟩
    case zeroSlot =>
      rw [zero] at committed
      exact ⟨committed.get_pixelHash, by rw [committed.prev]⟩
    case ownSlot =>
      exact committed.cache_eq_of_held (by simp only [home])
    case copiesPrev =>
      rw [held] at committed
      exact ⟨committed.stream, committed.prev⟩
    case startOfDecode =>
      have zero : s.cache[slot.toNat]'slot.isLt = Pixel.zero := by simp only [empty, Vector.getElem_replicate]; rfl
      rw [zero] at committed
      exact ⟨by rw [start]; decide, committed.stream⟩

end Sys2Proof.Machine

/-! SUPPORT. The bytes of DIFF and LUMA, their deltas as lane constants, and what a chunk of one pixel does; then the
statements about the two (44_delta_ops.md R230 to R232). -/

namespace Sys2Proof

/-! The bytes of the delta chunks (30_encoding.md R102, R104). -/

theorem ofNat_eq_of_eq_toNat {w v : Nat} {x : BitVec w} (h : v = x.toNat) : BitVec.ofNat w v = x := by
  rw [h, BitVec.ofNat_toNat, BitVec.setWidth_eq]

/-- DIFF's byte as its tag and its three fields. -/
theorem diff_byte_eq_append (dr dg db : BitVec 2) :
    BitVec.ofNat 8 (64 + 16 * dr.toNat + 4 * dg.toNat + db.toNat) = 0b01#2 ++ dr ++ dg ++ db :=
  ofNat_eq_of_eq_toNat (by simp only [toNat_append_eq_add, BitVec.toNat_ofNat]; omega)

theorem decodeChunk_diff (dr dg db : BitVec 2) (rest : List Byte) :
    decodeChunk ((0b01#2 ++ dr ++ dg ++ db) :: rest) = .ok (.diff dr dg db) := by
  obtain ⟨kind, nonzero, fields⟩ := diff_byte dr dg db
  rw [decodeChunk_cons (take_ne_trailer rest nonzero) kind, fields]

/-- LUMA's first byte as its tag and its field. -/
theorem luma_byte_eq_append (dg : BitVec 6) : BitVec.ofNat 8 (128 + dg.toNat) = 0b10#2 ++ dg :=
  ofNat_eq_of_eq_toNat (toNat_append_eq_add 0b10#2 dg).symm

/-- LUMA's second byte as its two fields. -/
theorem nibbles_byte_eq_append (hi lo : BitVec 4) : BitVec.ofNat 8 (16 * hi.toNat + lo.toNat) = hi ++ lo :=
  ofNat_eq_of_eq_toNat (by rw [toNat_append_eq_add]; omega)

/-- LUMA's first byte alone tells the kind. -/
theorem decodeChunk_luma (dg : BitVec 6) (later : List Byte) :
    decodeChunk ((0b10#2 ++ dg) :: later) = chunkFields .luma (0b10#2 ++ dg) later := by
  have value : (0b10#2 ++ dg : Byte).toNat = 128 + dg.toNat := toNat_append_eq_add _ _
  have kind : classify (0b10#2 ++ dg) = .ok .luma := by
    rw [classify_eq_ite, if_neg (by omega), if_neg (by omega), if_pos (by omega)]
  exact decodeChunk_of_toNat_pos (by omega) later kind

theorem chunkFields_luma (dg : BitVec 6) (drdg dbdg : BitVec 4) (rest : List Byte) :
    chunkFields .luma (0b10#2 ++ dg) ((drdg ++ dbdg) :: rest) = .ok (.luma dg drdg dbdg) := by
  obtain ⟨upper, lower⟩ := nibbles_append drdg dbdg
  rw [chunkFields, (low6_append _ dg).2, upper, lower]

end Sys2Proof

namespace Sys2Proof.Machine

/-! Deltas as lane constants. -/

/-- A delta as an 8-bit lane constant: the raw field, widened, less the bias. -/
theorem ofInt_unbias {w : Nat} (raw : BitVec w) (bias : Nat) :
    BitVec.ofInt 8 (unbias raw bias) = raw.setWidth 8 - BitVec.ofNat 8 bias := by
  rw [unbias, Int.sub_eq_add_neg, BitVec.ofInt_add, BitVec.ofInt_neg, ← BitVec.sub_eq_add_neg, BitVec.ofInt_natCast,
    BitVec.ofInt_natCast, BitVec.ofNat_toNat]

theorem addDelta_unbias {w : Nat} (c : Byte) (raw : BitVec w) (bias : Nat) :
    addDelta c (unbias raw bias) = c + (raw.setWidth 8 - BitVec.ofNat 8 bias) := by
  rw [addDelta_eq_add, ofInt_unbias]

theorem addDelta_unbias_add_unbias {v w : Nat} (c : Byte) (raw : BitVec v) (raw' : BitVec w) (bias bias' : Nat) :
    addDelta c (unbias raw bias + unbias raw' bias') =
      c + ((raw.setWidth 8 - BitVec.ofNat 8 bias) + (raw'.setWidth 8 - BitVec.ofNat 8 bias')) := by
  rw [addDelta_eq_add, BitVec.ofInt_add, ofInt_unbias, ofInt_unbias]

/-- A channel moved by two deltas, in the order the spec adds them. -/
theorem addDelta_add_toNat (c : Byte) (d e : Int) : ((addDelta c (d + e)).toNat : Int) = (c.toNat + d + e) % 256 := by
  rw [addDelta, wrap8_toNat, Int.add_assoc]

/-! A chunk of one pixel. -/

/-- Where the sink takes one pixel, a chunk of one pixel completes, and `prev` becomes that pixel. -/
theorem exec_onePixel_committed {i : Instr} (hc : i.isChunk = true) (hw : i.wf = true) {s : State} (hr : s.Ready 1)
    {p : Pixel} (one : chunkPixels i s.prev s.cache = [p]) :
    ∃ t, exec i s = .next t ∧ Committed s t [t.prev] t.prev i.byteLength ∧ t.prev = p := by
  obtain ⟨t, ht, committed⟩ := exec_chunk_committed hc hw (s := s) (by rwa [one])
  rw [one] at committed
  have prev : t.prev = p := committed.prev
  exact ⟨t, ht, by rwa [prev], prev⟩

/-! The statements. -/

/-- Settles O12: each channel's sum is an 8-bit addition, and its delta the lane constant of its raw field. -/
theorem deltaChunksAreLaneAdditions : Obligations.DeltaChunksAreLaneAdditions := by
  refine ⟨fun dr dg db p => ?diff, fun dg drdg dbdg p => ?luma⟩
  case diff =>
    simp only [diffPixel, addDelta_unbias]
    rfl
  case luma =>
    simp only [lumaPixel, addDelta_unbias, addDelta_unbias_add_unbias]
    rfl

/-- Settles O14: the byte is the tag and the three fields, and with a ready sink the chunk completes and commits DIFF's
pixel, each of whose channels is one wrapped sum. -/
theorem diffEffect : Obligations.DiffEffect := by
  refine fun dr dg db => ⟨fun rest => ?decodes, fun s ready => ?completes⟩
  case decodes => rw [diff_byte_eq_append, decodeChunk_diff]
  case completes =>
    obtain ⟨t, ht, committed, prev⟩ := exec_onePixel_committed (i := .diff dr dg db) rfl rfl ready rfl
    refine ⟨t, ht, committed, ?_⟩
    rw [prev]
    exact ⟨wrap8_toNat _, wrap8_toNat _, wrap8_toNat _, rfl⟩

/-- Settles O15: the first byte alone tells the kind, whose fields need one more byte; with a ready sink the chunk completes
and commits LUMA's pixel, whose red and blue move by two deltas and whose green by one. -/
theorem lumaEffect : Obligations.LumaEffect := by
  refine fun dg drdg dbdg => ⟨fun rest => ?decodes, ?truncated, fun s ready => ?completes⟩
  case decodes =>
    rw [luma_byte_eq_append, nibbles_byte_eq_append, decodeChunk_luma, chunkFields_luma]
  case truncated => rw [luma_byte_eq_append, decodeChunk_luma, chunkFields]
  case completes =>
    obtain ⟨t, ht, committed, prev⟩ := exec_onePixel_committed (i := .luma dg drdg dbdg) rfl rfl ready rfl
    refine ⟨t, ht, committed, ?_⟩
    rw [prev]
    exact ⟨addDelta_add_toNat _ _ _, wrap8_toNat _, addDelta_add_toNat _ _ _, rfl⟩

end Sys2Proof.Machine

/-! SUPPORT. The byte of RUN, and the chunks that emit `prev` once; then the statements about RUN and about the chunks of the
same effect (45_run.md R250, R251). -/

namespace Sys2Proof

/-- RUN's byte as its tag and its field (30_encoding.md R107). -/
theorem run_byte_eq_append (runRaw : BitVec 6) : BitVec.ofNat 8 (192 + runRaw.toNat) = 0b11#2 ++ runRaw :=
  ofNat_eq_of_eq_toNat (toNat_append_eq_add 0b11#2 runRaw).symm

/-- Below the reserved raw values a RUN byte is a whole chunk. -/
theorem decodeChunk_run {runRaw : BitVec 6} (h : runRaw.toNat < 62) (rest : List Byte) :
    decodeChunk ((0b11#2 ++ runRaw) :: rest) = .ok (.run runRaw) := by
  have value : (0b11#2 ++ runRaw : Byte).toNat = 192 + runRaw.toNat := toNat_append_eq_add _ _
  have kind : classify (0b11#2 ++ runRaw) = .ok .run := by
    rw [classify_eq_ite, if_neg (by omega), if_neg (by omega), if_neg (by omega), if_pos (by omega)]
  rw [decodeChunk_of_toNat_pos (by omega) rest kind, chunkFields, (low6_append _ runRaw).2]

/-- Only the fields of the kind RUN make a RUN. -/
theorem kind_eq_run_of_chunkFields {kind : Kind} {b0 : Byte} {later : List Byte} {runRaw : BitVec 6}
    (h : chunkFields kind b0 later = .ok (.run runRaw)) : kind = .run := by
  unfold chunkFields at h
  split at h <;> cases h
  rfl

/-- The bytes `0xFE` and `0xFF`, where the raw values 62 and 63 would stand, are no RUN (30_encoding.md R114). -/
theorem toNat_lt_of_decodeChunk_run {b0 : Byte} {rest : List Byte} {runRaw : BitVec 6}
    (h : decodeChunk (b0 :: rest) = .ok (.run runRaw)) : b0.toNat < 0xFE := by
  rcases decodeChunk_cases (b0 :: rest) with ⟨_, h'⟩ | ⟨empty, _⟩ | ⟨_, _, _, kind, same, hk, h'⟩
  · cases h'.symm.trans h
  · cases empty
  · cases same
    rw [kind_eq_run_of_chunkFields (h'.symm.trans h), classify_eq_ite] at hk
    by_contra literal
    rw [if_neg (by omega), if_neg (by omega), if_neg (by omega), if_neg literal] at hk
    split at hk <;> cases hk

end Sys2Proof

namespace Sys2Proof.Machine

/-! Chunks that move no channel. -/

@[simp] theorem addDelta_zero (c : Byte) : addDelta c 0 = c :=
  (addDelta_eq_add c 0).trans (BitVec.add_zero c)

/-- DIFF's raw field 2 is the delta 0. -/
theorem diffPixel_zero_deltas (prev : Pixel) : diffPixel 2 2 2 prev = prev := by
  have zero : unbias (2 : BitVec 2) 2 = 0 := rfl
  simp only [diffPixel, zero, addDelta_zero]

/-- LUMA's raw fields 32, 8 and 8 are the deltas 0. -/
theorem lumaPixel_zero_deltas (prev : Pixel) : lumaPixel 32 8 8 prev = prev := by
  have green : unbias (32 : BitVec 6) 32 = 0 := rfl
  have difference : unbias (8 : BitVec 4) 8 = 0 := rfl
  simp only [lumaPixel, green, difference, Int.add_zero, addDelta_zero]

/-- Where the sink takes one pixel, a chunk of one pixel is told by that pixel and its length alone. -/
theorem exec_onePixel {i : Instr} (hc : i.isChunk = true) (hw : i.wf = true) {s : State} (hr : s.Ready 1) {p : Pixel}
    (one : chunkPixels i s.prev s.cache = [p]) :
    exec i s = .next (State.commit p i.byteLength 1 { s with out := s.out.finish [p] }) := by
  rw [exec_chunk hc hw, one, emitAndCommit_ready hr]
  rfl

/-- One more byte of a chunk moves `POS` one further and changes nothing else. -/
theorem commit_succ (p : Pixel) (n k : Nat) (s : State) :
    s.commit p (n + 1) k = { s.commit p n k with pos := (s.commit p n k).pos + 1 } := by
  have further : s.pos + BitVec.ofNat 32 (n + 1) = s.pos + BitVec.ofNat 32 n + 1 := by
    rw [BitVec.ofNat_add, ← BitVec.add_assoc]
    rfl
  simp only [State.commit, further]

/-- Where the sink takes all its pixels, a RUN emits copies of `prev` and commits `prev` once. -/
theorem exec_run_committed {runRaw : BitVec 6} (h : runRaw.toNat < 62) {s : State} (hr : s.Ready (runRaw.toNat + 1)) :
    ∃ t, exec (.run runRaw) s = .next t ∧ Committed s t (List.replicate (runRaw.toNat + 1) s.prev) s.prev 1 := by
  have pixels : chunkPixels (.run runRaw) s.prev s.cache = List.replicate (runRaw.toNat + 1) s.prev := rfl
  have wf : (Instr.run runRaw).wf = true := by simpa [Instr.wf] using h
  obtain ⟨t, ht, committed⟩ := exec_chunk_committed rfl wf (s := s) (by rwa [pixels, List.length_replicate])
  rw [pixels, List.getLast?_replicate, if_neg (Nat.succ_ne_zero _), Option.getD_some] at committed
  exact ⟨t, ht, committed⟩

/-! The statements. -/

/-- Settles O19: the byte is the tag and the field, and with a ready sink the run completes and commits `prev` once. The corner
cases of R250 are about that commit: the initial `prev` hashes to 53, and a slot that holds `prev` already stays. -/
theorem runEffect : Obligations.RunEffect := by
  refine ⟨fun runRaw short => ⟨fun rest => ?decodes, fun s ready => ?completes⟩, fun b0 rest runRaw literal h => ?reserved⟩
  case decodes => rw [run_byte_eq_append, decodeChunk_run short]
  case completes =>
    obtain ⟨t, ht, committed⟩ := exec_run_committed short ready
    refine ⟨t, ht, committed, fun start => ?firstChunk, committed.cache_eq_of_held⟩
    rw [start] at committed
    exact committed.get_pixelHash
  case reserved => exact absurd (toNat_lt_of_decodeChunk_run h) (Nat.not_lt.mpr literal)

/-- Settles O29: each of the four emits `prev` alone, so they commit alike but for LUMA's second byte. At the start of a decode
INDEX emits the zero pixel of its slot instead (R210). -/
theorem equivalentChunks : Obligations.EquivalentChunks := by
  intro s ready
  refine ⟨_, exec_onePixel (i := .run 0) rfl rfl ready rfl, rfl, rfl, ?diff, ?luma, fun held => ?index,
    fun start empty => ?startOfDecode⟩
  case diff =>
    exact exec_onePixel (i := .diff 2 2 2) rfl rfl ready (congrArg (fun p => [p]) (diffPixel_zero_deltas s.prev))
  case luma =>
    rw [exec_onePixel (i := .luma 32 8 8) rfl rfl ready (congrArg (fun p => [p]) (lumaPixel_zero_deltas s.prev))]
    exact congrArg Host.Outcome.next (commit_succ s.prev 1 1 _)
  case index =>
    exact exec_onePixel (i := .index (pixelHash s.prev)) rfl rfl ready (congrArg (fun p => [p]) held)
  case startOfDecode =>
    obtain ⟨u, hu, _, _, _, _, zeroPixel⟩ := (indexEffect (pixelHash s.prev)).2 s ready
    exact ⟨u, hu, (zeroPixel start empty (by rw [start]; decide)).2⟩

end Sys2Proof.Machine

/-! SUPPORT. The length that the first byte announces, the last of the header's tests, and a block that has left BUSY; then the
statements about the order of the error tests and about taking an error (60_exceptions.md R272 to R274). -/

namespace Sys2Proof

/-! The length of a chunk is told by its kind (30_encoding.md R112). -/

/-- How many bytes a chunk of this kind takes (30_encoding.md R102 to R107). -/
def Kind.byteLength : Kind → Nat
  | .diff => 1
  | .index => 1
  | .luma => 2
  | .rgb => 4
  | .rgba => 5
  | .run => 1

/-- The first byte's range tells the length: `len(b0)`. -/
theorem byteLength_of_classify {b0 : Byte} {kind : Kind} (h : classify b0 = .ok kind) : kind.byteLength =
    if b0.toNat < 0x80 then 1 else if b0.toNat < 0xC0 then 2 else if b0.toNat = 0xFE then 4
      else if b0.toNat = 0xFF then 5 else 1 := by
  have := b0.isLt
  rw [classify_eq_ite] at h
  cases h
  split_ifs <;> simp only [Kind.byteLength] <;> omega

/-- The fields of a kind: bytes fewer than the kind's length are truncated, and enough of them are a chunk of that length. -/
theorem chunkFields_cases (kind : Kind) (b0 : Byte) (later : List Byte) :
    ((b0 :: later).length < kind.byteLength ∧ chunkFields kind b0 later = .error .truncated) ∨
    (kind.byteLength ≤ (b0 :: later).length ∧ ∃ i, chunkFields kind b0 later = .ok i ∧ i.isChunk = true ∧
      i.byteLength = kind.byteLength) := by
  unfold chunkFields
  split <;> simp [Kind.byteLength, Instr.isChunk, Instr.byteLength]

/-- The header's last test: with the signature and fourteen bytes there is a header (40_header.md R140). -/
theorem decodeHeader_of_fourteen_le {sig : Word} {bytes : List Byte} (same : bytes.take 4 = bytesOfWord sig)
    (h14 : 14 ≤ bytes.length) : ∃ i, decodeHeader sig bytes = .ok i := by
  match bytes, h14 with
  | _ :: _ :: _ :: _ :: _ :: _ :: _ :: _ :: _ :: _ :: _ :: _ :: _ :: _ :: _, _ =>
    exact ⟨_, if_pos (wordOfBytes_eq_iff.2 same)⟩

end Sys2Proof

namespace Sys2Proof.Machine

/-! After an error the block stays (60_exceptions.md R277). -/

/-- Outside BUSY, with no move of the host to come, a step changes nothing. -/
theorem step_of_not_busy {s : State} (h : s.schedule = []) (hs : s.status ≠ .busy) : step s = .next s := by
  rw [step_of_schedule_nil h, blockStep_of_not_busy hs]

/-- An error is taken once and for all: the step after the raise answers the state it stands in. -/
theorem step_raise {s : State} (h : s.schedule = []) (kind : FormatError) : step (s.raise kind) = .next (s.raise kind) :=
  step_of_not_busy h (by simp)

/-- The error entry of a step that raises, and nothing after it. -/
theorem afterRaise_of_step_raises {s : State} {kind : FormatError} (h : s.schedule = [])
    (raises : step s = .next (s.raise kind)) :
    ∃ t, step s = .next t ∧ t = s.afterRaise kind ∧ ∀ u, step t = .next u → u = t := by
  refine ⟨_, raises, raise_eq_afterRaise kind s, fun u hu => ?_⟩
  cases (step_raise h kind).symm.trans hu
  rfl

/-! The statements. -/

/-- Settles O4: bytes that are no trailer have the kind of their first byte, whose length decides between a chunk and
Truncated. -/
theorem chunkBoundaryPriority : Obligations.ChunkBoundaryPriority := by
  refine fun bytes => ⟨decodeChunk_trailer, ?missingTrailer, ?tagDecode⟩
  case missingTrailer =>
    rintro rfl
    rfl
  case tagDecode =>
    rintro b0 later len rfl noTrailer hlen
    have kind := classify_eq_ite b0
    rw [decodeChunk_cons noTrailer kind, hlen, ← byteLength_of_classify kind]
    rcases chunkFields_cases _ b0 later with ⟨fewer, rejected⟩ | ⟨enough, chunk⟩
    · exact ⟨fun _ => rejected, fun enough => absurd enough (Nat.not_le.2 fewer)⟩
    · exact ⟨fun fewer => absurd enough (Nat.not_le.2 fewer), fun _ => chunk⟩

/-- Settles O6: one lemma for each of the header's tests, in their order, and one for the header that passes them. -/
theorem headerTestPriority : Obligations.HeaderTestPriority := fun sig _ =>
  ⟨decodeHeader_of_length_lt_four sig, decodeHeader_of_other_signature,
    fun _ same short => decodeHeader_of_length_lt_fourteen same short,
    fun _ same h14 => decodeHeader_of_fourteen_le same h14⟩

/-- Settles O33: the bytes that stand in the buffer are the step's window, so the step raises what the decoder answers. -/
theorem errorEntry : Obligations.ErrorEntry := by
  refine ⟨fun s bytes kind enabled hl hh rejected => ?chunk, fun s bytes kind enabled hl hh rejected => ?header,
    rfl, rfl, rfl, rfl, rfl⟩
  case chunk =>
    have run := step_chunk enabled (chunkWindow_eq_ok.2 ⟨hl, hh⟩)
    rw [rejected] at run
    exact afterRaise_of_step_raises enabled.schedule run
  case header =>
    have run := step_header enabled (headerWindow_eq_ok.2 ⟨hl, hh⟩)
    rw [rejected] at run
    exact afterRaise_of_step_raises enabled.schedule run

end Sys2Proof.Machine

/-! SUPPORT. What a power-on reset and a START make of the machine; then the statements about reset, START and an INDEX right
after a chunk (70_reset_and_hazards.md R310, R311, R316). -/

namespace Sys2Proof.Machine

/-! Power-on reset. -/

/-- A power-on reset is one step from any state: the host's move is used up and the registers are reset. -/
theorem step_powerOn {s : State} {rest : List Move} (h : s.schedule = .host .powerOn :: rest) :
    step s = .next ({ s with schedule := rest } : State).powerOn := step_of_host h

@[simp] theorem OutPort.powerOn_offer (o : OutPort) (delivered : Bool) : (o.powerOn delivered).offer = none := by
  unfold OutPort.powerOn
  split <;> rfl

/-- Of the abandoned decode's pixels only the one on the interface can still be delivered. -/
theorem OutPort.powerOn_stream (o : OutPort) (delivered : Bool) :
    (o.powerOn delivered).stream = o.stream ∨
    ∃ p, o.offer = some p ∧ (o.powerOn delivered).stream = o.stream ++ [p] := by
  unfold OutPort.powerOn
  split
  · next p offered => exact .inr ⟨p, offered, rfl⟩
  · exact .inl rfl

/-! START. -/

/-- A START while not BUSY is one step: the host's move is used up and the decode begins. -/
theorem step_start {s : State} {value : Word} {rest : List Move}
    (h : s.schedule = .host (.writeReg 0x00 4 value) :: rest) (start : value.getLsbD 0 = true) (hs : s.status ≠ .busy) :
    step s = .next ({ s with schedule := rest } : State).startDecode := by
  rw [step_writeReg h rfl, writeRegister_ctrl, if_pos ⟨start, hs⟩]

/-! The statements. -/

/-- Settles O28: the chunk's commit leaves `prev` in its own slot, so the INDEX emits `prev` and its commit writes what that
slot holds already. -/
theorem indexSeesThePreviousCommit : Obligations.IndexSeesThePreviousCommit := by
  intro i s t hc hw ready ht ready'
  obtain ⟨t', p, ht', last, committed⟩ := everyChunkCommitsOnce i s hc hw ready
  cases ht.symm.trans ht'
  obtain rfl : t.prev = p := committed.prev
  have held := committed.get_pixelHash
  obtain ⟨u, hu, again, prev⟩ :=
    exec_onePixel_committed (i := .index (pixelHash t.prev)) rfl rfl ready' (congrArg (fun p => [p]) held)
  rw [prev] at again
  exact ⟨u, hu, last, again.stream, prev, again.cache_eq_of_held held⟩

/-- Settles O45: the reset's values are those of `State.reset` but for the port, and outside BUSY the block stays. That nothing
else stops a decode is the last clause of O49. -/
theorem powerOnReset : Obligations.PowerOnReset := by
  refine ⟨fun s rest h => ?reset, fun s t busy ht => ?noOtherStop⟩
  case reset =>
    refine ⟨_, step_powerOn h, rfl, rfl, rfl, rfl, rfl, rfl, rfl, rfl, rfl, rfl, rfl, rfl,
      OutPort.powerOn_offer _ _, OutPort.powerOn_stream _ _, rfl, fun u hu => ?blockStays⟩
    rw [step_of_not_busy rfl (nofun : Status.idle ≠ .busy)] at hu
    cases hu
    rfl
  case noOtherStop =>
    obtain ⟨_, _, _, _, _, _, leavesBusy⟩ := controlRegister.2 s 0 []
    exact leavesBusy t busy ht

/-- Settles O47: the write is the one step that `State.startDecode` gives, and each value is a field of it. -/
theorem startInitialisesTheDecode : Obligations.StartInitialisesTheDecode := by
  intro s value rest h start hs
  refine ⟨_, step_start h start hs, rfl, fun slot inside => ?zeroSlot, rfl, rfl, rfl, rfl, rfl, rfl, rfl, rfl, rfl, rfl,
    rfl, fun _ => rfl⟩
  case zeroSlot =>
    simp only [startDecode_cache, Vector.getElem_replicate]
    rfl

end Sys2Proof.Machine

/-! SUPPORT. The encoding and the decoder as inverses of each other, the decoder's rejections, and the expansions of the
pseudo-instructions; then the statements about them (30_encoding.md sections 1 to 6). -/

namespace Sys2Proof

/-! From an instruction to its bytes and back. -/

/-- INDEX's byte as its tag and its field (30_encoding.md R103). -/
theorem index_byte_eq_append (slot : BitVec 6) : BitVec.ofNat 8 slot.toNat = 0b00#2 ++ slot :=
  ofNat_eq_of_eq_toNat (by rw [toNat_append_eq_add]; simp)

theorem decodeChunk_index {slot : BitVec 6} {rest : List Byte} (noTrailer : ((0b00#2 ++ slot) :: rest).take 8 ≠ trailerBytes) :
    decodeChunk ((0b00#2 ++ slot) :: rest) = .ok (.index slot) := by
  rw [← index_byte_eq_append] at noTrailer ⊢
  rw [decodeChunk_cons noTrailer (classify_ofNat_index slot), chunkFields, low6_ofNat]

/-- Every chunk's bytes are read back, unless they and what follows are the trailer. -/
theorem decodeChunk_encode (sig : Word) {i : Instr} {rest : List Byte} (hc : i.isChunk = true) (hw : i.wf = true)
    (noTrailer : (encode sig i ++ rest).take 8 ≠ trailerBytes) : decodeChunk (encode sig i ++ rest) = .ok i := by
  cases i with
  | diff dr dg db => exact decodeChunk_diff dr dg db rest
  | index slot => exact decodeChunk_index noTrailer
  | luma dg drdg dbdg => exact (decodeChunk_luma dg _).trans (chunkFields_luma dg drdg dbdg rest)
  | rgb r g b => exact decodeChunk_rgb _
  | rgba r g b a => exact decodeChunk_rgba _
  | run runRaw => exact decodeChunk_run (by simpa [Instr.wf] using hw) rest
  | trailer => cases hc
  | header => cases hc

theorem decodeHeader_encode (sig width height : Word) (channels colorspace : Byte) (rest : List Byte) :
    decodeHeader sig (encode sig (.header width height channels colorspace) ++ rest) =
      .ok (.header width height channels colorspace) := by
  have complete := decodeHeader_complete sig (width.extractLsb' 24 8) (width.extractLsb' 16 8) (width.extractLsb' 8 8)
    (width.extractLsb' 0 8) (height.extractLsb' 24 8) (height.extractLsb' 16 8) (height.extractLsb' 8 8)
    (height.extractLsb' 0 8) channels colorspace rest
  rw [wordOfBytes_bytesOfWord, wordOfBytes_bytesOfWord] at complete
  simpa only [encode, bytesOfWord, List.append_assoc, List.cons_append, List.nil_append] using complete

/-! From bytes to their instruction and back. -/

/-- The first byte of each kind, put together again from its tag and its fields (30_encoding.md R102 to R107). -/
theorem firstByte_of_classify {b0 : Byte} {kind : Kind} (h : classify b0 = .ok kind) :
    b0 = match kind with
      | .diff => 0b01#2 ++ b0.extractLsb' 4 2 ++ b0.extractLsb' 2 2 ++ b0.extractLsb' 0 2
      | .index => 0b00#2 ++ low6 b0
      | .luma => 0b10#2 ++ low6 b0
      | .rgb => 0xFE
      | .rgba => 0xFF
      | .run => 0b11#2 ++ low6 b0 := by
  rw [classify_eq_ite, Except.ok.injEq] at h
  subst h
  revert b0
  decide

theorem append_nibbles (b : Byte) : b.extractLsb' 4 4 ++ b.extractLsb' 0 4 = b := by
  rw [← nibbles_byte_eq_append]
  exact ofNat_eq_of_eq_toNat (toNat_eq_nibbles b).symm

/-- The fields of a kind, encoded again, are the bytes they were taken from. -/
theorem encode_of_chunkFields (sig : Word) {kind : Kind} {b0 : Byte} {later : List Byte} {i : Instr}
    (hk : classify b0 = .ok kind) (h : chunkFields kind b0 later = .ok i) : encode sig i <+: b0 :: later := by
  have byte := firstByte_of_classify hk
  unfold chunkFields at h
  split at h <;> cases h
  case h_1 => exact ⟨later, congrArg (· :: later) byte.symm⟩
  case h_2 => exact ⟨later, congrArg (· :: later) byte.symm⟩
  case h_3 b1 rest =>
    rw [encode, append_nibbles]
    exact ⟨rest, congrArg (· :: b1 :: rest) byte.symm⟩
  case h_5 b1 b2 b3 rest => exact ⟨rest, congrArg (· :: b1 :: b2 :: b3 :: rest) byte.symm⟩
  case h_9 b1 b2 b3 b4 rest => exact ⟨rest, congrArg (· :: b1 :: b2 :: b3 :: b4 :: rest) byte.symm⟩
  case h_14 => exact ⟨later, congrArg (· :: later) byte.symm⟩

theorem encode_of_decodeChunk (sig : Word) {bytes : List Byte} {i : Instr} (h : decodeChunk bytes = .ok i) :
    encode sig i <+: bytes := by
  rcases decodeChunk_cases bytes with ⟨trailer, h'⟩ | ⟨_, h'⟩ | ⟨_, b0, later, kind, rfl, hk, h'⟩
  · cases h'.symm.trans h
    rw [encode, ← trailer]
    exact List.take_prefix 8 bytes
  · cases h'.symm.trans h
  · exact encode_of_chunkFields sig hk (h'.symm.trans h)

theorem encode_of_decodeHeader {sig : Word} {bytes : List Byte} {i : Instr} (h : decodeHeader sig bytes = .ok i) :
    encode sig i <+: bytes := by
  unfold decodeHeader at h
  split at h
  · split at h
    · next same =>
      split at h
      · cases h
        rw [encode, ← same]
        simp only [bytesOfWord_wordOfBytes]
        exact ⟨_, rfl⟩
      · cases h
    · cases h
  · cases h

/-! Rejections. -/

theorem kind_of_decodeChunk_error {bytes : List Byte} {kind : FormatError} (h : decodeChunk bytes = .error kind) :
    kind = .missingTrailer ∨ kind = .truncated := by
  rcases decodeChunk_cases bytes with ⟨_, h'⟩ | ⟨_, h'⟩ | ⟨_, _, _, _, _, _, h'⟩
  · cases h'.symm.trans h
  · cases h'.symm.trans h
    exact .inl rfl
  · exact .inr (chunkFields_error (h'.symm.trans h))

theorem kind_of_decodeHeader_error {sig : Word} {bytes : List Byte} {kind : FormatError}
    (h : decodeHeader sig bytes = .error kind) : kind = .badSignature ∨ kind = .truncated := by
  by_cases h4 : 4 ≤ bytes.length
  swap
  · cases (decodeHeader_of_length_lt_four sig (Nat.not_le.1 h4)).symm.trans h
    exact .inr rfl
  by_cases same : bytes.take 4 = bytesOfWord sig
  swap
  · cases (decodeHeader_of_other_signature h4 same).symm.trans h
    exact .inl rfl
  by_cases h14 : 14 ≤ bytes.length
  · obtain ⟨i, complete⟩ := decodeHeader_of_fourteen_le same h14
    cases complete.symm.trans h
  · cases (decodeHeader_of_length_lt_fourteen same (Nat.not_le.1 h14)).symm.trans h
    exact .inr rfl

end Sys2Proof

namespace Sys2Proof.Machine

/-! The pseudo-instructions (30_encoding.md R119). -/

theorem assemble_header (width height channels colorspace : Nat) : assemble (.header width height channels colorspace) =
    if width < 2 ^ 32 ∧ height < 2 ^ 32 ∧ channels ≤ 255 ∧ colorspace ≤ 255 then
      some [.header (BitVec.ofNat 32 width) (BitVec.ofNat 32 height) (BitVec.ofNat 8 channels) (BitVec.ofNat 8 colorspace)]
    else none := by
  have word (v : Nat) : v < 2 ^ 32 ↔ v ≤ 4294967295 := by omega
  simp only [assemble, rawField_natCast (w := 32) (high := 4294967295) rfl, rawField_natCast (w := 8) (high := 255) rfl,
    bind_ite_none, Option.pure_def, word]
  simp only [ite_and]

theorem runOfLength_eq_some {n : Nat} (h1 : 1 ≤ n) (h62 : n ≤ 62) :
    runOfLength n = some (.run (BitVec.ofNat 6 (n - 1))) := if_pos ⟨h1, h62⟩

/-- The raw values of the runs that `REPEAT n` stands for: as many of the greatest length as leave at least one pixel, and
one run of the pixels left. -/
def repeatRaws (n : Nat) : List (BitVec 6) :=
  List.replicate ((n - 1) / 62) 61 ++ [BitVec.ofNat 6 (n - 62 * ((n - 1) / 62) - 1)]

theorem assemble_repeatPrev {n : Nat} (h : 1 ≤ n) :
    assemble (.repeatPrev n) = some ((repeatRaws n).map Instr.run) := by
  have last := runOfLength_eq_some (n := n - 62 * ((n - 1) / 62)) (by omega) (by omega)
  simp only [assemble, runOfLength_eq_some (n := 62) (by omega) (by omega), last, repeatRaws, List.map_append,
    List.map_replicate]
  rfl

theorem wf_of_mem_repeatRaws {n : Nat} {raw : BitVec 6} (h : raw ∈ repeatRaws n) : (Instr.run raw).wf = true := by
  rcases List.mem_append.1 h with full | last
  · rw [List.eq_of_mem_replicate full]
    rfl
  · rw [List.mem_singleton.1 last, Instr.wf, decide_eq_true_iff, BitVec.toNat_ofNat]
    omega

theorem eq_of_mem_repeatRaws_dropLast {n : Nat} {raw : BitVec 6} (h : raw ∈ (repeatRaws n).dropLast) : raw = 61 := by
  rw [repeatRaws, List.dropLast_concat] at h
  exact List.eq_of_mem_replicate h

theorem repeatRaws_sum {n : Nat} (h : 1 ≤ n) : ((repeatRaws n).map fun raw => raw.toNat + 1).sum = n := by
  have full : (61 : BitVec 6).toNat + 1 = 62 := rfl
  simp only [repeatRaws, List.map_append, List.map_replicate, List.sum_append, List.sum_replicate, List.map_singleton,
    List.sum_singleton, full, BitVec.toNat_ofNat, smul_eq_mul]
  omega

/-! The statements. -/

/-- Settles O2: every kind's bytes are its tag and its fields, which the decoder takes apart again. -/
theorem decodeOfEncodeIsTheInstruction : Obligations.DecodeOfEncodeIsTheInstruction := by
  refine fun sig i rest wf => ⟨fun hc noTrailer => decodeChunk_encode sig hc wf noTrailer, ?trailer, ?header⟩
  case trailer =>
    rintro rfl
    exact decodeChunk_trailer rfl
  case header =>
    rintro width height channels colorspace rfl
    exact decodeHeader_encode sig width height channels colorspace rest

/-- Settles O3: the fields that the decoder takes from a first byte of a kind make up that byte again, and each later byte is
a field or a pair of fields of its own. -/
theorem decodedBytesBeginWithTheEncoding : Obligations.DecodedBytesBeginWithTheEncoding := by
  refine fun sig bytes i => ⟨fun h => ⟨decodeChunk_wf h, encode_of_decodeChunk sig h⟩,
    fun h => ⟨?headerWf, encode_of_decodeHeader h⟩⟩
  obtain ⟨_, _, _, _, _, rfl⟩ := decodeHeader_ok h
  rfl

/-- Settles O7: the decoders reject by MissingTrailer, Truncated and BadSignature only. -/
theorem noInputHasAnUnknownTag : Obligations.NoInputHasAnUnknownTag := by
  refine fun sig bytes => ⟨fun h => ?chunk, fun h => ?header⟩
  case chunk => rcases kind_of_decodeChunk_error h with other | other <;> cases other
  case header => rcases kind_of_decodeHeader_error h with other | other <;> cases other

/-- Settles O9: HEADER's row, and the runs of `repeatRaws`; COPY is the same line as RUN 1. -/
theorem pseudoInstructionsExpand : Obligations.PseudoInstructionsExpand := by
  refine ⟨fun sig width height channels colorspace => ?header, fun sig => ⟨rfl, rfl⟩, rfl, fun n hn => ?repeats⟩
  case header => exact assembleBytes_of_row (assemble_header width height channels colorspace) fun _ => rfl
  case repeats =>
    exact ⟨repeatRaws n, assemble_repeatPrev hn, fun _ => wf_of_mem_repeatRaws,
      fun _ => eq_of_mem_repeatRaws_dropLast, repeatRaws_sum hn⟩

/-- Settles O1: seven closed evaluations of the decoder. -/
theorem specWordsDecode : Obligations.SpecWordsDecode := by
  refine ⟨?_, ?_, ?_, ?_, ?_, ?_, ?_⟩ <;> decide

end Sys2Proof.Machine

/-! SUPPORT. How a chunk's step can end, whatever the sink takes: its frame, its pauses, its alpha and the earlier register
values it keeps; then the statements about the chunks and the header as instructions (20_memory.md R75; 41_chunk_step.md
R160, R165). -/

namespace Sys2Proof.Machine

/-! The end of a chunk's step. -/

/-- A sink that accepts every pixel takes whatever is left, so the chunk commits. -/
theorem emitAndCommit_accepting {s : State} (h : s.out.sink = .accepting) (e : List Pixel) (p : Pixel) (n : Nat) :
    s.emitAndCommit e p n = State.commit p n e.length { s with out := s.out.finish (e.drop s.out.sent) } := by
  rcases emitAndCommit_cases e p n s with ⟨_, commits⟩ | ⟨fewer, _⟩
  · exact commits
  · rw [h] at fewer
    exact absurd fewer (lt_irrefl _)

/-- A sink that takes fewer pixels than are left makes the chunk wait. -/
theorem emitAndCommit_fewer {s : State} {e : List Pixel} {k : Nat}
    (takes : s.out.sink.accepts (e.length - s.out.sent) = k) (fewer : k < e.length - s.out.sent) (p : Pixel) (n : Nat) :
    s.emitAndCommit e p n = { s with out := s.out.pause (e.drop s.out.sent) k } := by
  rw [← List.length_drop] at takes fewer
  rcases emitAndCommit_cases e p n s with ⟨all, _⟩ | ⟨_, waits⟩
  · exact absurd (takes.symm.trans all) fewer.ne
  · rw [waits, takes]

theorem emitAndCommit_sameBeside (e : List Pixel) (p : Pixel) (n : Nat) (s : State) :
    SameBeside s (s.emitAndCommit e p n) := by
  rcases emitAndCommit_cases e p n s with ⟨_, h⟩ | ⟨_, h⟩ <;> rw [h] <;>
    exact ⟨rfl, rfl, rfl, rfl, rfl, rfl, rfl, rfl, rfl, fun _ => rfl, rfl, rfl, rfl⟩

/-- What has been emitted stays emitted. -/
theorem emitAndCommit_stream (e : List Pixel) (p : Pixel) (n : Nat) (s : State) :
    s.out.stream <+: (s.emitAndCommit e p n).out.stream := by
  rcases emitAndCommit_cases e p n s with ⟨_, h⟩ | ⟨_, h⟩ <;> rw [h] <;> exact List.prefix_append _ _

/-- Only the slot of the new `prev` can change. -/
theorem emitAndCommit_otherSlots (e : List Pixel) (p : Pixel) (n : Nat) (s : State) {slot : BitVec 6}
    (other : slot ≠ pixelHash (s.emitAndCommit e p n).prev) :
    (s.emitAndCommit e p n).cache[slot.toNat]'slot.isLt = s.cache[slot.toNat]'slot.isLt := by
  rcases emitAndCommit_cases e p n s with ⟨_, h⟩ | ⟨_, h⟩
  · simp only [h, commit_prev] at other
    simp only [h, commit_cache]
    rw [cacheWith_get, if_neg other]
  · simp only [h]

/-- A chunk that waits changes no register of R319; one that commits keeps their values for later reads (log 9). -/
theorem emitAndCommit_moments (e : List Pixel) (p : Pixel) (n : Nat) (s : State) :
    ((s.emitAndCommit e p n).moment = s.moment ∧ (s.emitAndCommit e p n).moments = s.moments) ∨
    (s.emitAndCommit e p n).moments = s.moment :: s.moments := by
  rcases emitAndCommit_cases e p n s with ⟨_, h⟩ | ⟨_, h⟩ <;> rw [h]
  · exact .inr rfl
  · exact .inl ⟨rfl, rfl⟩

/-! Runs that have no encoding (30_encoding.md R114). -/

theorem exec_reservedRun {runRaw : BitVec 6} (h : 62 ≤ runRaw.toNat) (s : State) :
    exec (.run runRaw) s = .next (s.raise .unknownChunkTag) := by
  have reserved : ∀ raw : BitVec 6, 62 ≤ raw.toNat → reservedRun raw = true := by decide
  exact if_pos (reserved runRaw h)

/-- Everything but a reserved run is well-formed. -/
theorem eq_reservedRun_of_not_wf {i : Instr} (h : ¬ i.wf = true) : ∃ runRaw, i = .run runRaw ∧ 62 ≤ runRaw.toNat := by
  cases i with
  | run runRaw => exact ⟨runRaw, rfl, by simpa [Instr.wf] using h⟩
  | _ => exact absurd rfl h

/-! Pauses (20_memory.md R75; log 6). -/

/-- The state with another sink on the output interface. -/
def State.withSink (sink : Sink) (s : State) : State := { s with out := { s.out with sink := sink } }

@[simp] theorem withSink_prev (sink : Sink) (s : State) : (s.withSink sink).prev = s.prev := rfl
@[simp] theorem withSink_cache (sink : Sink) (s : State) : (s.withSink sink).cache = s.cache := rfl

/-- An attempt with a sink that takes fewer pixels than are left. -/
theorem exec_withSink_limited {i : Instr} (hc : i.isChunk = true) (hw : i.wf = true) {s : State} {k : Nat}
    (fewer : k < (chunkPixels i s.prev s.cache).length - s.out.sent) :
    exec i (s.withSink (.limited k)) = .next { s with
      out := (s.withSink (.limited k)).out.pause ((chunkPixels i s.prev s.cache).drop s.out.sent) k } := by
  rw [exec_chunk hc hw]
  exact congrArg Host.Outcome.next (emitAndCommit_fewer (s := s.withSink (.limited k)) (min_eq_left fewer.le) fewer _ _)

/-- `t` is `s` but for the port, which has let the first `sent` of the pixels `e` through. -/
structure SentSoFar (e : List Pixel) (s t : State) : Prop where
  beside : t = { s with out := t.out }
  stream : t.out.stream = s.out.stream ++ e.take t.out.sent

/-- A pause lets some more of them through. -/
theorem SentSoFar.pause {e : List Pixel} {s t : State} (h : SentSoFar e s t) (k : Nat) :
    SentSoFar e s { t with out := (t.withSink (.limited k)).out.pause (e.drop t.out.sent) k } where
  beside := by rw [h.beside]
  stream := by simp [State.withSink, h.stream, List.take_add]

theorem sentSoFar_of_paused {i : Instr} {s t : State} (hc : i.isChunk = true) (hw : i.wf = true) (none : s.out.sent = 0)
    (h : Paused i s t) : SentSoFar (chunkPixels i s.prev s.cache) s t := by
  induction h with
  | start => exact ⟨rfl, by simp [none]⟩
  | @pause t u k before fewer attempt sofar =>
    have pixels : chunkPixels i t.prev t.cache = chunkPixels i s.prev s.cache := by rw [sofar.beside]
    cases (exec_withSink_limited hc hw fewer).symm.trans attempt
    rw [pixels]
    exact sofar.pause k

/-- Pixels let through and pixels left are all the pixels, so an accepting sink ends the chunk as it would have at once. -/
theorem SentSoFar.emitAndCommit_withSink_accepting {e : List Pixel} {s t : State} (h : SentSoFar e s t)
    (none : s.out.sent = 0) (p : Pixel) (n : Nat) :
    (t.withSink .accepting).emitAndCommit e p n = (s.withSink .accepting).emitAndCommit e p n := by
  obtain ⟨beside, stream⟩ := h
  generalize t.out = port at beside stream
  subst beside
  have finished : ({ port with sink := .accepting } : OutPort).finish (e.drop port.sent) =
      (s.withSink .accepting).out.finish (e.drop s.out.sent) := by
    simp [State.withSink, OutPort.finish, Sink.after, stream, none]
  rw [emitAndCommit_accepting rfl, emitAndCommit_accepting rfl]
  exact congrArg (fun out => State.commit p n e.length { s with out := out }) finished

/-! Alpha (42_literal_ops.md). -/

/-- All pixels of a chunk but INDEX and RGBA have the alpha of `prev`. -/
theorem alpha_of_mem_chunkPixels {i : Instr} {prev p : Pixel} {cache : Cache} (noIndex : ∀ slot, i ≠ .index slot)
    (noRgba : ∀ r g b a, i ≠ .rgba r g b a) (h : p ∈ chunkPixels i prev cache) : p.a = prev.a := by
  cases i with
  | index slot => exact absurd rfl (noIndex slot)
  | rgba r g b a => exact absurd rfl (noRgba r g b a)
  | run runRaw => rw [List.eq_of_mem_replicate h]
  | trailer => cases h
  | header => cases h
  | _ => rw [List.mem_singleton.1 h]; rfl

/-! The statements. -/

/-- Settles O27: after any pauses the port has let a beginning of the chunk's pixels through and the rest of the state is as it
was, so the accepting sink takes exactly the pixels that are left. -/
theorem pausedChunkEndsTheSame : Obligations.PausedChunkEndsTheSame := by
  intro i s t u hc hw none paused hu
  have sofar := sentSoFar_of_paused hc hw none paused
  have prev : t.prev = s.prev := by rw [sofar.beside]
  have cache : t.cache = s.cache := by rw [sofar.beside]
  have same : exec i (s.withSink .accepting) = exec i (t.withSink .accepting) := by
    rw [exec_chunk hc hw, exec_chunk hc hw]
    simp only [withSink_prev, withSink_cache, prev, cache, sofar.emitAndCommit_withSink_accepting none]
  exact same.trans hu

/-- Settles O25: both ends of a chunk's step have the frame. -/
theorem chunkFrame : Obligations.ChunkFrame := by
  intro i s t hc hw ht
  rw [exec_chunk hc hw] at ht
  cases ht
  exact ⟨emitAndCommit_sameBeside _ _ _ s, emitAndCommit_stream _ _ _ s, fun _ => emitAndCommit_otherSlots _ _ _ s⟩

/-- Settles O26: of the two ends of a chunk's step the sink leaves only the wait. -/
theorem blockedChunkWaits : Obligations.BlockedChunkWaits := by
  intro i s hc hw fewer
  have waiting := pause_waiting (e := chunkPixels i s.prev s.cache) (s := s) (by rwa [List.length_drop])
  rw [List.length_drop] at waiting
  exact ⟨_, by rw [exec_chunk hc hw, emitAndCommit_fewer rfl fewer], waiting, rfl⟩

/-- Settles O30: the chunk's pixels are copies of the last one, which is the new `prev`. -/
theorem alphaOfEveryChunk : Obligations.AlphaOfEveryChunk := by
  intro i s hc hw ready
  obtain ⟨t, p, ht, last, committed⟩ := everyChunkCommitsOnce i s hc hw ready
  obtain rfl : t.prev = p := committed.prev
  refine ⟨t, _, ht, committed.stream, fun q hq => ?oneAlpha, fun noIndex noRgba => ?kept, ?index, ?rgba⟩
  case oneAlpha =>
    obtain ⟨k, copies⟩ := chunkPixels_eq_replicate last
    rw [copies] at hq
    rw [List.eq_of_mem_replicate hq]
  case kept => exact alpha_of_mem_chunkPixels noIndex noRgba (List.mem_of_getLast? last)
  case index =>
    rintro slot rfl
    exact congrArg Pixel.a (Option.some.inj last).symm
  case rgba =>
    rintro r g b a rfl
    exact congrArg Pixel.a (Option.some.inj last).symm

/-- Settles O42: the header and every commit keep the values, and a chunk that waits or raises changes none of the
registers. -/
theorem earlierRegisterValuesAreKept : Obligations.EarlierRegisterValuesAreKept := by
  intro i s t noTrailer ht
  by_cases hw : i.wf = true
  swap
  · obtain ⟨runRaw, rfl, reserved⟩ := eq_reservedRun_of_not_wf hw
    rw [exec_reservedRun reserved] at ht
    cases ht
    exact .inl ⟨rfl, rfl⟩
  by_cases hc : i.isChunk = true
  · rw [exec_chunk hc hw] at ht
    cases ht
    exact emitAndCommit_moments _ _ _ s
  · cases i with
    | trailer => exact absurd rfl noTrailer
    | header => cases ht; exact .inr rfl
    | _ => exact absurd rfl hc

/-- Settles O20: the raw values 62 and 63 are the reserved ones. -/
theorem reservedRunRaises : Obligations.ReservedRunRaises :=
  fun _ s reserved => (exec_reservedRun reserved s).trans (congrArg Host.Outcome.next (raise_eq_afterRaise _ s))

/-- Settles O22: the state is the one that HEADER's definition writes out. -/
theorem headerEffect : Obligations.HeaderEffect := fun _ _ _ _ _ => rfl

end Sys2Proof.Machine

/-! SUPPORT. What the block's step runs and when it answers, the bytes it depends on, where STATE changes, and the values kept
along a run; then the statements about the step (20_memory.md R70, R77; 10_state.md R37; 70_reset_and_hazards.md R319). -/

namespace Sys2Proof.Machine

/-! The block's step answers on a placed buffer. -/

theorem runDecoded_next (decoded : Except FormatError Instr) (s : State) : ∃ t, s.runDecoded decoded = .next t := by
  cases decoded with
  | error kind => exact ⟨_, rfl⟩
  | ok i => exact exec_next i s

theorem blockStep_next_of_loaded {s : State} (hl : s.Loaded) : ∃ t, blockStep s = .next t := by
  by_cases hs : s.status = .busy
  swap
  · exact ⟨s, blockStep_of_not_busy hs⟩
  cases hp : s.phase with
  | header =>
    obtain ⟨bytes, hw⟩ := headerWindow_of_loaded hl
    rw [blockStep_of_header hs hp, headerStep, hw]
    exact runDecoded_next _ s
  | chunks =>
    obtain ⟨bytes, hw⟩ := chunkWindow_of_loaded hl
    rw [blockStep_of_chunks hs hp, chunkStep, hw]
    exact runDecoded_next _ s

/-! The bytes a chunk-boundary step depends on. -/

/-- A read of one byte depends on `IN_LEN`, and below it on that byte of the buffer. -/
theorem readByte_congr {s t : State} {addr : Nat} (inLen : s.inLen = t.inLen)
    (read : addr < s.inLen.toNat → s.input.read addr = t.input.read addr) : s.readByte addr = t.readByte addr := by
  by_cases below : addr < s.inLen.toNat
  · simp only [State.readByte, ← inLen, read below]
  · rw [State.readByte, if_pos (Nat.not_lt.1 below), State.readByte, if_pos (inLen ▸ Nat.not_lt.1 below)]

/-- Two states with the same boundary and `IN_LEN` whose buffers agree on the eight bytes there have the same window. -/
theorem chunkWindow_congr {s t : State} (pos : s.pos = t.pos) (inLen : s.inLen = t.inLen)
    (read : ∀ k < 8, s.pos.toNat + k < s.inLen.toNat →
      s.input.read (s.pos.toNat + k) = t.input.read (s.pos.toNat + k)) : s.chunkWindow = t.chunkWindow := by
  simp only [State.chunkWindow, State.remaining, ← pos, ← inLen]
  exact readBytes_congr fun k hk => readByte_congr inLen (read k (by omega))

/-- The state with another input buffer. -/
def State.withInput (m : Memory) (s : State) : State := { s with input := m }

theorem emitAndCommit_withInput (m : Memory) (e : List Pixel) (p : Pixel) (n : Nat) (s : State) :
    (s.withInput m).emitAndCommit e p n = (s.emitAndCommit e p n).withInput m := by
  rcases emitAndCommit_cases e p n s with ⟨all, h⟩ | ⟨fewer, h⟩ <;> rw [h]
  · exact if_pos all
  · exact if_neg fewer.ne

/-- What a chunk-boundary step does with its window does not look at the buffer again. -/
theorem chunkStep_withInput {m : Memory} {s t : State} (window : (s.withInput m).chunkWindow = s.chunkWindow)
    (h : chunkStep s = .next t) : chunkStep (s.withInput m) = .next (t.withInput m) := by
  cases hw : s.chunkWindow with
  | error f => rw [chunkStep, hw] at h; cases h
  | ok bytes =>
    have run : chunkStep (s.withInput m) = (s.withInput m).runDecoded (decodeChunk bytes) := by
      rw [chunkStep, window, hw]
    rw [run]
    rcases chunkStep_cases hw with ⟨kind, hd, h'⟩ | ⟨hd, _, h'⟩ | ⟨i, hd, hc, hwf, _, h'⟩ <;> rw [h'] at h <;> cases h <;>
      rw [hd]
    · rfl
    · rfl
    · exact (exec_chunk hc hwf _).trans (congrArg _ (emitAndCommit_withInput m _ _ _ s))

/-! Where STATE changes (10_state.md R37). -/

/-- A move of the block leaves STATE or ends the decode, by a trailer or by a raise. -/
theorem status_of_blockStep {s t : State} (h : blockStep s = .next t) :
    t.status = s.status ∨
    (s.status = .busy ∧ t.status = .done ∧ ∃ bytes, s.chunkWindow = .ok bytes ∧ decodeChunk bytes = .ok .trailer) ∨
    (s.status = .busy ∧ t.status = .error ∧ t.error ≠ none ∧ t.errPos = s.pos) := by
  cases blockMove_of_blockStep h with
  | stays => exact .inl rfl
  | headerRaises busy => exact .inr (.inr ⟨busy, rfl, nofun, rfl⟩)
  | takesHeader => exact .inl rfl
  | chunkRaises busy => exact .inr (.inr ⟨busy, rfl, nofun, rfl⟩)
  | ends busy _ window decoded => exact .inr (.inl ⟨busy, rfl, _, window, decoded⟩)
  | runsChunk => exact .inl (emitAndCommit_status _ _ _ s)

/-- The only defined width is 32 bits. -/
theorem bytes_eq_four_of_definedAccess {offset bytes : Nat} (h : definedAccess offset bytes = true) : bytes = 4 := by
  simp only [definedAccess, Bool.and_eq_true, beq_iff_eq] at h
  exact h.1.1

/-- Everything a host action can lead to from `s`, each with its guards. -/
inductive HostMove (s : State) : HostAction → State → Prop where
  | starts {value : Word} (notBusy : s.status ≠ .busy) (start : value.getLsbD 0 = true) :
      HostMove s (.writeReg 0x00 4 value) s.startDecode
  | setsLength {value : Word} (notBusy : s.status ≠ .busy) :
      HostMove s (.writeReg 0x10 4 value) { s with inLen := value }
  | noEffect {offset : Nat} {value : Word} : HostMove s (.writeReg offset 4 value) s
  | reads {offset : Nat} : HostMove s (.readReg offset 4) (s.readRegister offset)
  | places {addr : Word} {value : Byte} (allowed : s.loadForbidden addr value = false) :
      HostMove s (.load addr value) { s with input := s.input.write addr.toNat value }
  | setsSink {sink : Sink} : HostMove s (.setSink sink) (s.withSink sink)
  | resets : HostMove s .powerOn s.powerOn

/-- Whatever a host action answers is one of these moves. -/
theorem hostMove_of_hostAct {action : HostAction} {s t : State} (h : hostAct action s = .next t) : HostMove s action t := by
  cases action with
  | writeReg offset bytes value =>
    simp only [hostAct] at h
    split at h <;> cases h
    next defined =>
      obtain rfl := bytes_eq_four_of_definedAccess defined
      rcases writeRegister_cases offset value s with ⟨rfl, start, notBusy, h⟩ | ⟨rfl, notBusy, h⟩ | h <;> rw [h]
      · exact .starts notBusy start
      · exact .setsLength notBusy
      · exact .noEffect
  | readReg offset bytes =>
    simp only [hostAct] at h
    split at h <;> cases h
    next defined =>
      obtain rfl := bytes_eq_four_of_definedAccess defined
      exact .reads
  | load addr value =>
    simp only [hostAct] at h
    split at h <;> cases h
    next allowed => exact .places (Bool.eq_false_iff.2 allowed)
  | setSink sink => cases h; exact .setsSink
  | powerOn => cases h; exact .resets

/-- A host action leaves STATE, begins a decode, or resets. -/
theorem status_of_hostAct {action : HostAction} {s t : State} (h : hostAct action s = .next t) :
    t.status = s.status ∨
    (s.status ≠ .busy ∧ t.status = .busy ∧ ∃ value, action = .writeReg 0 4 value ∧ value.getLsbD 0 = true) ∨
    (t.status = .idle ∧ action = .powerOn) := by
  cases hostMove_of_hostAct h with
  | starts notBusy start => exact .inr (.inl ⟨notBusy, rfl, _, rfl, start⟩)
  | resets => exact .inr (.inr ⟨rfl, rfl⟩)
  | _ => exact .inl rfl

/-! The values kept along a run (70_reset_and_hazards.md R319; log 9). -/

/-- A step that ends BUSY began the decode and kept nothing, or it was BUSY before and kept at most the present values. -/
theorem moments_of_step {s t : State} (h : step s = .next t) (busy : t.status = .busy) :
    t.moments = [] ∨ (s.status = .busy ∧ (t.moments = s.moments ∨ t.moments = s.moment :: s.moments)) := by
  rcases step_course h with noCommit | ⟨_, chunk⟩ | header | ⟨_, _, rfl⟩ | ⟨_, rfl⟩
  · exact .inr ⟨noCommit.busy busy, .inl noCommit.moments⟩
  · exact .inr ⟨chunk.busy, .inr chunk.moments⟩
  · exact .inr ⟨header.busy, .inr header.moments⟩
  · exact .inl rfl
  · cases busy

/-- The run from `s` is BUSY from its step `j` to its step `k`. -/
def BusyThrough (s : State) (j k : Nat) : Prop :=
  ∀ n v, j ≤ n → n ≤ k → core.run n s = .next v → v.status = .busy

theorem busyThrough_self {s t : State} {k : Nat} (ht : core.run k s = .next t) (busy : t.status = .busy) :
    BusyThrough s k k := by
  intro n v low high hv
  obtain rfl := Nat.le_antisymm high low
  cases ht.symm.trans hv
  exact busy

theorem BusyThrough.succ {s t : State} {j k : Nat} (h : BusyThrough s j k) (ht : core.run (k + 1) s = .next t)
    (busy : t.status = .busy) : BusyThrough s j (k + 1) := by
  intro n v low high hv
  rcases Nat.le_succ_iff.1 high with inside | rfl
  · exact h n v low inside hv
  · exact busyThrough_self ht busy _ v le_rfl le_rfl hv

/-! The statements. -/

/-- Settles O60: by induction on the run; the last step began the decode, or it kept the values of a state that was BUSY and
the values kept before are those of the run up to there. -/
theorem heldMomentsAreOfThisDecode : Obligations.HeldMomentsAreOfThisDecode := by
  intro k s t fresh ht busy m hm
  induction k generalizing t with
  | zero =>
    cases ht
    rw [fresh] at hm
    cases hm
  | succ k ih =>
    obtain ⟨t', ht', last⟩ := run_succ_last ht
    rcases moments_of_step last busy with none | ⟨busy', kept⟩
    · rw [none] at hm
      cases hm
    · have earlier : m = t'.moment ∨ m ∈ t'.moments := by
        rcases kept with same | more
        · exact .inr (same ▸ hm)
        · exact List.mem_cons.1 (more ▸ hm)
      rcases earlier with rfl | earlier
      · exact ⟨k, t', k.lt_succ_self, ht', rfl, (busyThrough_self ht' busy').succ ht busy⟩
      · obtain ⟨j, u, hj, hu, held, through⟩ := ih t' ht' busy' earlier
        exact ⟨j, u, hj.trans k.lt_succ_self, hu, held, BusyThrough.succ through ht busy⟩

/-- Settles O38: every fault of a step is at a byte below `IN_LEN`. -/
theorem noReadAtOrBeyondInLen : Obligations.NoReadAtOrBeyondInLen := step_ne_beyondInLen

/-- Settles O39: the window of either step lies on placed bytes, and what the decoder answers always runs. -/
theorem blockNeverStopsOnAPlacedBuffer : Obligations.BlockNeverStopsOnAPlacedBuffer := by
  intro s noHost hl
  rw [step_of_schedule_nil noHost]
  exact blockStep_next_of_loaded hl

/-- Settles O40: the two buffers have the same window, and nothing but the window is read. -/
theorem stepReadsEightBytes : Obligations.StepReadsEightBytes := by
  intro s t m enabled agree h
  have window : (s.withInput m).chunkWindow = s.chunkWindow := chunkWindow_congr rfl rfl agree
  have enabled' : (s.withInput m).Enabled .chunks := ⟨enabled.schedule, enabled.status, enabled.phase⟩
  rw [step_of_enabled_chunks enabled] at h
  exact (step_of_enabled_chunks enabled').trans (chunkStep_withInput window h)

/-- Settles O43: the move at the head of the schedule is the block's or the host's. -/
theorem stateChangesOnlyAsTheRulesSay : Obligations.StateChangesOnlyAsTheRulesSay := by
  intro s t h
  match hsch : s.schedule with
  | [] =>
    rcases status_of_blockStep ((step_of_schedule_nil hsch).symm.trans h) with same | done | error
    · exact .inl same
    · exact .inr (.inr (.inl done))
    · exact .inr (.inr (.inr (.inl error)))
  | .block :: rest =>
    rcases status_of_blockStep (s := { s with schedule := rest }) ((step_of_block hsch).symm.trans h) with
      same | ⟨busy, done, window⟩ | error
    · exact .inl same
    · rw [chunkWindow_with_schedule] at window
      exact .inr (.inr (.inl ⟨busy, done, window⟩))
    · exact .inr (.inr (.inr (.inl error)))
  | .host action :: rest =>
    rcases status_of_hostAct ((step_of_host hsch).symm.trans h) with
      same | ⟨notBusy, busy, value, rfl, start⟩ | ⟨idle, rfl⟩
    · exact .inl same
    · exact .inr (.inl ⟨notBusy, busy, value, rest, rfl, start⟩)
    · exact .inr (.inr (.inr (.inr ⟨idle, rest, rfl⟩)))

/-- Settles O31: the bytes that stand at `POS` are the step's window. -/
theorem stepRunsTheDecodedChunk : Obligations.StepRunsTheDecodedChunk := by
  intro s bytes i enabled hl hh decoded
  rw [step_chunk enabled (chunkWindow_eq_ok.2 ⟨hl, hh⟩), decoded]
  rfl

/-- Settles O32: the bytes that stand at offset 0 are the step's window. -/
theorem stepRunsTheDecodedHeader : Obligations.StepRunsTheDecodedHeader := by
  intro s bytes i enabled hl hh decoded
  rw [step_header enabled (headerWindow_eq_ok.2 ⟨hl, hh⟩), decoded]
  rfl

/-- Settles O34: outside BUSY the block stays, whether its move is due or the schedule is empty. -/
theorem endedBlockStays : Obligations.EndedBlockStays := fun s rest notBusy =>
  ⟨fun h => step_of_not_busy h notBusy,
    fun h => (step_of_block h).trans (blockStep_of_not_busy (s := { s with schedule := rest }) notBusy)⟩

end Sys2Proof.Machine

/-! SUPPORT. A decode over a placed buffer with an accepting sink: every chunk-boundary step ends it or brings it closer to
`IN_LEN`, and along it the machine goes through the same chunks as `decodeStream`; then the statements about progress, the end
of every decode and the decode as a function (41_chunk_step.md R160, R167; 00_scope.md R13). -/

namespace Sys2Proof.Machine

/-! One chunk-boundary step of a decode whose sink accepts everything. -/

/-- The block is at a chunk boundary inside `IN_LEN`, on a placed buffer and with a sink that accepts every pixel. -/
structure Decoding (s : State) : Prop where
  enabled : s.Enabled .chunks
  loaded : s.Loaded
  accepting : s.out.sink = .accepting
  inside : s.pos.toNat ≤ s.inLen.toNat

/-- The last of the pixels a chunk produces, which it commits. -/
def State.lastPixel (i : Instr) (s : State) : Pixel := (chunkPixels i s.prev s.cache).getLast?.getD s.prev

/-- The state after the chunk `i`, whose pixels the sink has all accepted. -/
def State.afterChunk (i : Instr) (s : State) : State :=
  State.commit (s.lastPixel i) i.byteLength (chunkPixels i s.prev s.cache).length
    { s with out := s.out.finish ((chunkPixels i s.prev s.cache).drop s.out.sent) }

@[simp] theorem afterChunk_prev (i : Instr) (s : State) : (s.afterChunk i).prev = s.lastPixel i := rfl
@[simp] theorem afterChunk_cache (i : Instr) (s : State) : (s.afterChunk i).cache = cacheWith s.cache (s.lastPixel i) := rfl
@[simp] theorem afterChunk_inLen (i : Instr) (s : State) : (s.afterChunk i).inLen = s.inLen := rfl
@[simp] theorem afterChunk_pixCount (i : Instr) (s : State) : (s.afterChunk i).pixCount =
    s.pixCount + BitVec.ofNat 64 (chunkPixels i s.prev s.cache).length := rfl

theorem afterChunk_pos {i : Instr} {s : State} (h : s.pos.toNat + i.byteLength ≤ s.inLen.toNat) :
    (s.afterChunk i).pos.toNat = s.pos.toNat + i.byteLength := pos_add_toNat h

theorem Decoding.afterChunk {s : State} (h : Decoding s) {i : Instr}
    (inside : s.pos.toNat + i.byteLength ≤ s.inLen.toNat) : Decoding (s.afterChunk i) where
  enabled := ⟨h.enabled.schedule, h.enabled.status, h.enabled.phase⟩
  loaded := h.loaded
  accepting := congrArg (fun sink => Sink.after sink _) h.accepting
  inside := by rwa [afterChunk_pos inside]

/-- The step raises, ends the decode, or goes on to the next chunk boundary. -/
theorem Decoding.step_cases {s : State} (h : Decoding s) {bytes : List Byte} (hw : s.chunkWindow = .ok bytes) :
    (∃ kind, decodeChunk bytes = .error kind ∧ step s = .next (s.raise kind)) ∨
    (decodeChunk bytes = .ok .trailer ∧ s.pos.toNat + 8 ≤ s.inLen.toNat ∧
      step s = .next { s with pos := s.pos + 8, status := .done }) ∨
    (∃ i, decodeChunk bytes = .ok i ∧ i.isChunk = true ∧ i.wf = true ∧ s.pos.toNat + i.byteLength ≤ s.inLen.toNat ∧
      step s = .next (s.afterChunk i)) := by
  rw [step_of_enabled_chunks h.enabled]
  rcases chunkStep_cases hw with raises | ends | ⟨i, hd, hc, hwf, inside, run⟩
  · exact .inl raises
  · exact .inr (.inl ends)
  · rw [emitAndCommit_accepting h.accepting] at run
    exact .inr (.inr ⟨i, hd, hc, hwf, inside, run⟩)

/-- The decode has ended. -/
def State.Ended (s : State) : Prop := s.status = .done ∨ s.status = .error

/-- Progress: the step ends the decode, or the decode goes on with a greater `POS` (41_chunk_step.md R167). -/
theorem Decoding.step_progress {s : State} (h : Decoding s) :
    ∃ t, step s = .next t ∧ t.inLen = s.inLen ∧ t.pos.toNat ≤ t.inLen.toNat ∧
      (t.Ended ∨ (Decoding t ∧ s.pos.toNat < t.pos.toNat)) := by
  obtain ⟨bytes, hw⟩ := chunkWindow_of_loaded h.loaded
  rcases h.step_cases hw with ⟨kind, _, run⟩ | ⟨_, inside, run⟩ | ⟨i, _, _, _, inside, run⟩
  · exact ⟨_, run, rfl, h.inside, .inl (.inr rfl)⟩
  · exact ⟨_, run, rfl, (pos_add_toNat (n := 8) inside).trans_le inside, .inl (.inl rfl)⟩
  · have more := byteLength_pos i
    exact ⟨_, run, rfl, (h.afterChunk inside).inside, .inr ⟨h.afterChunk inside, by rw [afterChunk_pos inside]; omega⟩⟩

/-- `IN_LEN - POS` bounds the chunks to come, and one more step ends the decode. -/
theorem Decoding.ends {left : Nat} {s : State} (h : Decoding s) (bound : s.inLen.toNat - s.pos.toNat ≤ left) :
    ∃ k t, k ≤ left + 1 ∧ core.run k s = .next t ∧ t.Ended := by
  induction left generalizing s with
  | zero =>
    obtain ⟨t, run, inLen, inside, ended | ⟨_, further⟩⟩ := h.step_progress
    · exact ⟨1, t, le_rfl, run_succ 0 run, ended⟩
    · rw [inLen] at inside
      omega
  | succ left ih =>
    obtain ⟨t, run, inLen, inside, ended | ⟨decoding, further⟩⟩ := h.step_progress
    · exact ⟨1, t, by omega, run_succ 0 run, ended⟩
    · obtain ⟨k, u, hk, hu, ended⟩ := ih decoding (by rw [inLen]; omega)
      exact ⟨k + 1, u, by omega, (run_succ k run).trans hu, ended⟩

/-! The header step of such a decode. -/

/-- The state after the header step has taken these fields in. -/
def State.afterHeader (width height : Word) (channels colorspace : Byte) (s : State) : State :=
  { s with
    hdrWidth := width
    hdrHeight := height
    hdrFmt := ⟨channels, colorspace, true⟩
    phase := .chunks
    pos := 14
    moments := s.moment :: s.moments }

theorem decoding_afterHeader {s : State} (enabled : s.Enabled .header) (loaded : s.Loaded)
    (accepting : s.out.sink = .accepting) (inside : 14 ≤ s.inLen.toNat) (width height : Word) (channels colorspace : Byte) :
    Decoding (s.afterHeader width height channels colorspace) where
  enabled := ⟨enabled.schedule, enabled.status, rfl⟩
  loaded := loaded
  accepting := accepting
  inside := inside

/-- The header step raises, or takes the header in. -/
theorem step_header_cases {s : State} (enabled : s.Enabled .header) {bytes : List Byte}
    (hw : s.headerWindow = .ok bytes) :
    (∃ kind, decodeHeader Config.signature bytes = .error kind ∧ step s = .next (s.raise kind)) ∨
    (∃ width height channels colorspace,
      decodeHeader Config.signature bytes = .ok (.header width height channels colorspace) ∧ 14 ≤ s.inLen.toNat ∧
      step s = .next (s.afterHeader width height channels colorspace)) := by
  rw [step_of_schedule_nil enabled.schedule, blockStep_of_header enabled.status enabled.phase]
  exact headerStep_cases hw

/-! The result of a decode in progress (00_scope.md R13; log 7). -/

/-- The header registers as the header part of a result. -/
def State.headerRead (s : State) : Header := ⟨s.hdrWidth, s.hdrHeight, s.hdrFmt.channels, s.hdrFmt.colorspace⟩

/-- `bytes` are the input from `POS` to `IN_LEN`, and `pixels` are this decode's so far, the last of the stream; what is left
cannot make `PIX_COUNT` wrap. -/
structure Computing (pixels : List Pixel) (bytes : List Byte) (s : State) : Prop where
  decoding : Decoding s
  sent : s.out.sent = 0
  length : s.pos.toNat + bytes.length = s.inLen.toNat
  holds : s.Holds s.pos.toNat bytes
  stream : pixels <:+ s.out.stream
  pixCount : s.pixCount.toNat = pixels.length
  bound : pixels.length + 62 * bytes.length < 2 ^ 64

/-- The window is the first eight bytes of the input from `POS` on. -/
theorem Computing.chunkWindow {pixels : List Pixel} {bytes : List Byte} {s : State} (h : Computing pixels bytes s) :
    s.chunkWindow = .ok (bytes.take 8) := by
  have rem : bytes.length = s.remaining := by
    have := h.length
    unfold State.remaining
    omega
  refine chunkWindow_eq_ok.2 ⟨by rw [List.length_take, rem], fun k hk => ?_⟩
  rw [List.getElem_take]
  exact h.holds k _

theorem State.Holds.drop {s : State} {addr : Nat} {bytes : List Byte} (h : s.Holds addr bytes) (n : Nat) :
    s.Holds (addr + n) (bytes.drop n) := by
  intro k hk
  rw [List.getElem_drop, Nat.add_assoc]
  exact h (n + k) _

/-- A chunk appends its pixels to this decode's and takes its bytes from the input. -/
theorem Computing.afterChunk {pixels : List Pixel} {bytes : List Byte} {s : State} (h : Computing pixels bytes s)
    {i : Instr} (hc : i.isChunk = true) (hw : i.wf = true) (inside : s.pos.toNat + i.byteLength ≤ s.inLen.toNat) :
    Computing (pixels ++ chunkPixels i s.prev s.cache) (bytes.drop i.byteLength) (s.afterChunk i) := by
  obtain ⟨_, few⟩ := chunkPixels_length hc hw s.prev s.cache
  have taken := byteLength_pos i
  have length := h.length
  have bound := h.bound
  refine ⟨h.decoding.afterChunk inside, rfl, ?length, ?holds, ?stream, ?pixCount, ?bound⟩
  case length =>
    rw [afterChunk_pos inside, List.length_drop, afterChunk_inLen]
    omega
  case holds =>
    rw [afterChunk_pos inside]
    exact h.holds.drop i.byteLength
  case stream =>
    obtain ⟨before, stream⟩ := h.stream
    exact ⟨before, by simp [State.afterChunk, h.sent, ← stream]⟩
  case pixCount =>
    rw [afterChunk_pixCount, BitVec.toNat_add, BitVec.toNat_ofNat, List.length_append]
    have := h.pixCount
    omega
  case bound =>
    rw [List.length_append, List.length_drop]
    omega

/-- When the trailer ends the decode, its result is its header and its pixels. -/
theorem Computing.result_done {pixels : List Pixel} {bytes : List Byte} {s : State} (h : Computing pixels bytes s) :
    ({ s with pos := s.pos + 8, status := .done } : State).result = some (.ok (s.headerRead, pixels)) := by
  obtain ⟨before, stream⟩ := h.stream
  have last : s.out.stream.drop (s.out.stream.length - s.pixCount.toNat) = pixels := by
    rw [h.pixCount, ← stream, List.length_append, Nat.add_sub_cancel, List.drop_left]
  simp only [State.result, last, State.headerRead]

theorem result_raise (kind : FormatError) (s : State) : (s.raise kind).result = some (.error kind) := rfl

/-! The chunk loop, case by case. -/

theorem pixelsOfStream_error {bytes : List Byte} {kind : FormatError} (h : decodeChunk bytes = .error kind) (fuel : Nat)
    (prev : Pixel) (cache : Cache) : pixelsOfStream (fuel + 1) bytes prev cache = .error kind := by
  rw [pixelsOfStream, h]

theorem pixelsOfStream_trailer {bytes : List Byte} (h : decodeChunk bytes = .ok .trailer) (fuel : Nat) (prev : Pixel)
    (cache : Cache) : pixelsOfStream (fuel + 1) bytes prev cache = .ok [] := by
  rw [pixelsOfStream, h]

/-- A chunk's pixels come before those of the bytes after it. -/
theorem pixelsOfStream_chunk {bytes : List Byte} {i : Instr} (h : decodeChunk bytes = .ok i) (hc : i.isChunk = true)
    (fuel : Nat) (s : State) : pixelsOfStream (fuel + 1) bytes s.prev s.cache =
      (pixelsOfStream fuel (bytes.drop i.byteLength) (s.lastPixel i) (cacheWith s.cache (s.lastPixel i))).map
        (chunkPixels i s.prev s.cache ++ ·) := by
  rw [pixelsOfStream, h]
  cases i with
  | trailer => cases hc
  | _ => simp only [State.lastPixel]; split <;> next later => rw [later]; rfl

/-- The machine goes through the chunk loop: it ends with the header, the pixels so far and those that the loop answers, or
with its error. -/
theorem Computing.run_result {fuel : Nat} {pixels : List Pixel} {bytes : List Byte} {s : State}
    (h : Computing pixels bytes s) (enough : bytes.length < fuel) :
    ∃ k t, core.run k s = .next t ∧ t.result =
      some ((pixelsOfStream fuel bytes s.prev s.cache).map fun later => (s.headerRead, pixels ++ later)) := by
  induction fuel generalizing pixels bytes s with
  | zero => omega
  | succ fuel ih =>
    have outcomes := h.decoding.step_cases h.chunkWindow
    rw [decodeChunk_take] at outcomes
    rcases outcomes with ⟨kind, hd, run⟩ | ⟨hd, _, run⟩ | ⟨i, hd, hc, hw, inside, run⟩
    · refine ⟨1, _, run_succ 0 run, ?_⟩
      rw [pixelsOfStream_error hd, result_raise]
      rfl
    · refine ⟨1, _, run_succ 0 run, ?_⟩
      rw [pixelsOfStream_trailer hd, h.result_done, Except.map, List.append_nil]
    · have taken := byteLength_pos i
      have length := h.length
      obtain ⟨k, t, ht, result⟩ := ih (h.afterChunk hc hw inside) (by rw [List.length_drop]; omega)
      refine ⟨k + 1, t, (run_succ k run).trans ht, ?_⟩
      rw [result, pixelsOfStream_chunk hd hc, afterChunk_prev, afterChunk_cache]
      cases pixelsOfStream fuel (bytes.drop i.byteLength) (s.lastPixel i) (cacheWith s.cache (s.lastPixel i)) with
      | error kind => rfl
      | ok later => rw [Except.map, Except.map, Except.map, List.append_assoc]; rfl

/-! The whole decode. -/

theorem decodeStream_error {sig : Word} {bytes : List Byte} {kind : FormatError}
    (h : decodeHeader sig bytes = .error kind) : decodeStream sig bytes = .error kind := by
  rw [decodeStream, h]

theorem decodeStream_header {sig : Word} {bytes : List Byte} {width height : Word} {channels colorspace : Byte}
    (h : decodeHeader sig bytes = .ok (.header width height channels colorspace)) :
    decodeStream sig bytes =
      (pixelsOfStream (bytes.length + 1) (bytes.drop 14) ⟨0, 0, 0, 255⟩ (Vector.replicate 64 Pixel.zero)).map
        fun pixels => (⟨width, height, channels, colorspace⟩, pixels) := by
  rw [decodeStream, h]
  simp only
  split <;> next pixels => rw [pixels]; rfl

theorem loaded_of_holds {s : State} {bytes : List Byte} (length : bytes.length = s.inLen.toNat) (holds : s.Holds 0 bytes) :
    s.Loaded := by
  intro addr below
  have read := holds addr (length ▸ below)
  rw [Nat.zero_add] at read
  rw [read]
  rfl

/-- Right after the header step no pixel has been produced, and the input from 14 on is left. -/
theorem computing_afterHeader {s : State} {bytes : List Byte} (decoding : Decoding s) (pos : s.pos = 14)
    (sent : s.out.sent = 0) (pixCount : s.pixCount = 0) (length : bytes.length = s.inLen.toNat) (holds : s.Holds 0 bytes) :
    Computing [] (bytes.drop 14) s := by
  have inside := decoding.inside
  have fits := s.inLen.isLt
  have start : s.pos.toNat = 14 := by rw [pos]; rfl
  refine ⟨decoding, sent, ?_, ?_, List.nil_suffix, by rw [pixCount]; rfl, ?_⟩
  · rw [List.length_drop]
    omega
  · rw [start]
    simpa only [Nat.zero_add] using holds.drop 14
  · rw [List.length_drop, List.length_nil]
    omega

/-! The statements. -/

/-- Settles O37: a raise by the header step is the result; after the header the machine goes through the chunk loop of
`decodeStream`. -/
theorem machineComputesTheDecode : Obligations.MachineComputesTheDecode := by
  intro s bytes noHost length holds accepting
  have enabled : s.startDecode.Enabled .header := ⟨noHost, rfl, rfl⟩
  have outcomes := step_header_cases enabled (headerWindow_of_holds (s := s.startDecode) length holds)
  rw [decodeHeader_take] at outcomes
  rcases outcomes with ⟨kind, hd, run⟩ | ⟨width, height, channels, colorspace, hd, inside, run⟩
  · refine ⟨1, _, run_succ 0 run, ?_⟩
    rw [decodeStream_error hd, result_raise]
  · have decoding := decoding_afterHeader enabled (loaded_of_holds (s := s.startDecode) length holds) accepting inside
      width height channels colorspace
    have computing := computing_afterHeader decoding rfl rfl rfl length holds
    obtain ⟨k, t, ht, result⟩ := computing.run_result (fuel := bytes.length + 1) (by rw [List.length_drop]; omega)
    refine ⟨k + 1, t, (run_succ k run).trans ht, ?_⟩
    rw [result, decodeStream_header hd]
    rfl

/-- Settles O36: after one header step `IN_LEN - 14` bounds the chunks, and one more step ends the decode. -/
theorem everyDecodeEnds : Obligations.EveryDecodeEnds := by
  intro s enabled _ loaded accepting
  obtain ⟨bytes, hw⟩ := headerWindow_of_loaded loaded
  rcases step_header_cases enabled hw with ⟨kind, _, run⟩ | ⟨width, height, channels, colorspace, _, inside, run⟩
  · exact ⟨1, _, by omega, run_succ 0 run, .inr rfl⟩
  · have decoding := decoding_afterHeader enabled loaded accepting inside width height channels colorspace
    obtain ⟨k, t, hk, ht, ended⟩ := decoding.ends (left := s.inLen.toNat - 14) le_rfl
    exact ⟨k + 1, t, by omega, (run_succ k run).trans ht, ended⟩

/-- Settles O35: a raise and a trailer end the decode, and a chunk takes at least one byte. -/
theorem chunkStepMakesProgress : Obligations.ChunkStepMakesProgress := by
  intro s enabled loaded accepting inside
  obtain ⟨t, run, inLen, inside', (done | error) | ⟨decoding, further⟩⟩ :=
    Decoding.step_progress ⟨enabled, loaded, accepting, inside⟩
  · exact ⟨t, run, inLen, inside', .inl done⟩
  · exact ⟨t, run, inLen, inside', .inr (.inl error)⟩
  · exact ⟨t, run, inLen, inside', .inr (.inr ⟨decoding.enabled, further⟩)⟩

end Sys2Proof.Machine

/-! SUPPORT. The invariant under each kind of step: the host's side, a START, a reset, a raise, the header, the trailer, a
commit and a wait; then the statements about the invariant (10_state.md sections 2, 3 and 5; 41_chunk_step.md R172). -/

namespace Sys2Proof.Machine

/-! The invariant under the host's moves. -/

theorem chunkWindow_withOut (o : OutPort) (s : State) : ({ s with out := o } : State).chunkWindow = s.chunkWindow :=
  chunkWindow_congr rfl rfl fun _ _ _ => rfl

/-- The invariant is about the port through the offered pixel and the count of sent ones alone. -/
theorem Inv.withOut {s : State} (h : Inv s) {o : OutPort}
    (offer : o.offer ≠ none → s.status = .busy ∧ s.phase = .chunks ∧ ∃ bytes i, s.chunkWindow = .ok bytes ∧
      decodeChunk bytes = .ok i ∧ o.offer = (chunkPixels i s.prev s.cache)[o.sent]?)
    (sent : o.offer = none → o.sent = 0) : Inv { s with out := o } where
  __ := h
  offer hne := by rw [chunkWindow_withOut]; exact offer hne
  sent := sent

theorem chunkWindow_withHostSide (schedule : List Move) (readData : Word) (draws : Nat) (s : State) :
    ({ s with schedule := schedule, readData := readData, draws := draws } : State).chunkWindow = s.chunkWindow :=
  chunkWindow_congr rfl rfl fun _ _ _ => rfl

/-- The moves to come, the word last read and the draw counter are no part of it. -/
theorem Inv.withHostSide {s : State} (h : Inv s) (schedule : List Move) (readData : Word) (draws : Nat) :
    Inv { s with schedule := schedule, readData := readData, draws := draws } where
  __ := h
  offer hne := by rw [chunkWindow_withHostSide]; exact h.offer hne

/-- A buffer in canonical form that, while BUSY, reads the same below `IN_LEN`. -/
theorem Inv.withInput {s : State} (h : Inv s) {m : Memory} (wf : m.wf)
    (same : s.status = .busy → ∀ addr < s.inLen.toNat, m.read addr = s.input.read addr) : Inv (s.withInput m) where
  __ := h
  memory := wf
  offer hne := by
    obtain ⟨busy, phase, bytes, i, window, offered⟩ := h.offer hne
    have window' : (s.withInput m).chunkWindow = s.chunkWindow := chunkWindow_congr rfl rfl fun _ _ => same busy _
    exact ⟨busy, phase, bytes, i, window'.trans window, offered⟩

/-- `IN_LEN` matters while BUSY only, when it cannot be written (10_state.md R43). -/
theorem Inv.withInLen {s : State} (h : Inv s) (notBusy : s.status ≠ .busy) (value : Word) :
    Inv { s with inLen := value } where
  __ := h
  pos busy := absurd busy notBusy
  offer hne := absurd (h.offer hne).1 notBusy

theorem loadForbidden_eq_false_iff {s : State} {addr : Word} {value : Byte} : s.loadForbidden addr value = false ↔
    (s.status = .busy → addr.toNat < s.inLen.toNat → s.input.read addr.toNat = some value) := by
  simp [State.loadForbidden]

/-- An allowed placing of a byte changes no byte below `IN_LEN` while BUSY (20_memory.md R80(b); log 13). -/
theorem Inv.places {s : State} (h : Inv s) {addr : Word} {value : Byte} (allowed : s.loadForbidden addr value = false) :
    Inv (s.withInput (s.input.write addr.toNat value)) := by
  refine h.withInput (Memory.write_wf h.memory addr.isLt value) fun busy other below => ?_
  by_cases same : other = addr.toNat
  · subst same
    rw [Memory.read_write_same, loadForbidden_eq_false_iff.1 allowed busy below]
  · exact Memory.read_write_other _ _ same

theorem getElem_replicate_zero (slot : BitVec 6) :
    (Vector.replicate 64 Pixel.zero)[slot.toNat]'slot.isLt = Pixel.zero := Vector.getElem_replicate _

/-- A START makes it hold, whatever was there before but the buffer. -/
theorem inv_startDecode {s : State} (wf : s.input.wf) : Inv s.startDecode where
  memory := wf
  ctrl := rfl
  valid := ⟨nofun, nofun⟩
  error := ⟨fun hne => absurd rfl hne, nofun⟩
  knownTag := nofun
  errPos := rfl
  header _ := ⟨rfl, rfl, nofun⟩
  idle := nofun
  pos _ := nofun
  chunkCount := nofun
  pixCount := ⟨le_rfl, le_rfl⟩
  slots _ slot := .inl (getElem_replicate_zero slot)
  prevCached hne := absurd rfl hne
  moments _ := rfl
  offer hne := absurd rfl hne
  sent _ := rfl

/-- The registers' reset values make it hold, with any buffer in canonical form and a port that offers nothing. -/
theorem inv_of_reset_registers {input : Memory} {out : OutPort} (schedule : List Move) (readData : Word) (draws : Nat)
    (wf : input.wf) (offer : out.offer = none) (sent : out.sent = 0) :
    Inv { State.reset with input := input, out := out, schedule := schedule, readData := readData, draws := draws } where
  memory := wf
  ctrl := rfl
  valid := ⟨nofun, nofun⟩
  error := ⟨fun hne => absurd rfl hne, nofun⟩
  knownTag := nofun
  errPos := rfl
  header _ := ⟨rfl, rfl, nofun⟩
  idle _ := rfl
  pos := nofun
  chunkCount := nofun
  pixCount := ⟨le_rfl, le_rfl⟩
  slots hne := absurd rfl hne
  prevCached hne := absurd rfl hne
  moments := nofun
  offer hne := absurd offer hne
  sent _ := sent

@[simp] theorem OutPort.powerOn_sent (o : OutPort) (delivered : Bool) : (o.powerOn delivered).sent = 0 := by
  unfold OutPort.powerOn
  split <;> rfl

theorem inv_powerOn {s : State} (wf : s.input.wf) : Inv s.powerOn :=
  inv_of_reset_registers s.schedule s.readData (s.draws + 1) wf (OutPort.powerOn_offer _ _) (OutPort.powerOn_sent _ _)

theorem Inv.hostMove {action : HostAction} {s t : State} (h : Inv s) (move : HostMove s action t) : Inv t := by
  cases move with
  | starts => exact inv_startDecode h.memory
  | setsLength notBusy => exact h.withInLen notBusy _
  | noEffect => exact h
  | reads => exact h.withHostSide _ _ _
  | places allowed => exact h.places allowed
  | setsSink => exact h.withOut h.offer h.sent
  | resets => exact inv_powerOn h.memory

/-! The invariant under the block's moves. -/

/-- No pixel is offered but by a chunk that the bytes at `POS` decode to. -/
theorem Inv.offer_eq_none {s : State} (h : Inv s)
    (noChunk : ∀ bytes i, s.phase = .chunks → s.chunkWindow = .ok bytes → decodeChunk bytes = .ok i → i.isChunk = false) :
    s.out.offer = none := by
  by_contra hne
  obtain ⟨_, phase, bytes, i, window, decoded, offered⟩ := h.offer hne
  have ended := noChunk bytes i phase window decoded
  rcases decodeChunk_isChunk decoded with rfl | chunk
  · exact hne offered
  · cases ended.symm.trans chunk

/-- A raise other than UnknownChunkTag, while nothing is offered (60_exceptions.md R272). -/
theorem Inv.raise {s : State} (h : Inv s) (busy : s.status = .busy) {kind : FormatError} (known : kind ≠ .unknownChunkTag)
    (noOffer : s.out.offer = none) : Inv (s.raise kind) where
  memory := h.memory
  ctrl := h.ctrl
  valid := h.valid
  error := ⟨fun _ => rfl, fun _ => nofun⟩
  knownTag := fun same => known (Option.some.inj same)
  errPos := rfl
  header phase := by
    obtain ⟨start, fresh, _⟩ := h.header phase
    exact ⟨start, fresh, nofun⟩
  idle := nofun
  pos := nofun
  chunkCount := h.chunkCount
  pixCount := h.pixCount
  slots _ := h.slots (by simp [busy])
  prevCached := h.prevCached
  moments := nofun
  offer hne := absurd noOffer hne
  sent := h.sent

/-- The header step (40_header.md R140): until then nothing has been counted or kept. -/
theorem Inv.afterHeader {s : State} (h : Inv s) (busy : s.status = .busy) (phase : s.phase = .header)
    (inside : 14 ≤ s.inLen.toNat) (width height : Word) (channels colorspace : Byte) :
    Inv (s.afterHeader width height channels colorspace) := by
  obtain ⟨start, fresh, _⟩ := h.header phase
  have noChunks : s.chunkCount = 0 := congrArg Moment.chunkCount start
  have noPixels : s.pixCount = 0 := congrArg Moment.pixCount start
  have noOffer : s.out.offer = none := h.offer_eq_none fun _ _ chunks => by cases phase.symm.trans chunks
  exact
    { memory := h.memory
      ctrl := h.ctrl
      valid := ⟨fun _ => rfl, fun _ => rfl⟩
      error := h.error
      knownTag := h.knownTag
      errPos := by
        have errPos := h.errPos
        rw [if_neg (by simp [busy])] at errPos
        exact errPos.trans (if_neg (by simp [State.afterHeader, busy])).symm
      header := nofun
      idle := fun idle => by cases busy.symm.trans idle
      pos := fun _ _ => inside
      chunkCount := fun _ => by simp [State.afterHeader, noChunks]
      pixCount := h.pixCount
      slots := h.slots
      prevCached := h.prevCached
      moments := fun _ => by
        have follows : (s.afterHeader width height channels colorspace).moment.Follows s.moment :=
          .inl ⟨start, rfl, rfl, noChunks, noPixels⟩
        simp only [State.afterHeader, fresh]
        exact ⟨follows, start⟩
      offer := fun hne => absurd noOffer hne
      sent := h.sent }

/-- The trailer (41_chunk_step.md R161). -/
theorem Inv.ends {s : State} (h : Inv s) (busy : s.status = .busy) (phase : s.phase = .chunks)
    (inside : s.pos.toNat + 8 ≤ s.inLen.toNat) (noOffer : s.out.offer = none) :
    Inv { s with pos := s.pos + 8, status := .done } where
  memory := h.memory
  ctrl := h.ctrl
  valid := h.valid
  error := ⟨fun hne => (nomatch busy.symm.trans (h.error.1 hne)), nofun⟩
  knownTag := h.knownTag
  errPos := by
    have errPos := h.errPos
    rwa [if_neg (by simp [busy])] at errPos
  header header := by cases phase.symm.trans header
  idle := nofun
  pos := nofun
  chunkCount _ := by
    have counted := h.chunkCount phase
    have further : (s.pos + 8).toNat = s.pos.toNat + 8 := pos_add_toNat inside
    simp only [further]
    omega
  pixCount := h.pixCount
  slots _ := h.slots (by simp [busy])
  prevCached := h.prevCached
  moments := nofun
  offer hne := absurd noOffer hne
  sent := h.sent

/-- The counters do not wrap: every chunk took at least one byte of `IN_LEN` and gave at most 62 pixels. -/
theorem Inv.counts_after {s : State} (h : Inv s) (phase : s.phase = .chunks) {n k : Nat} (hn : 1 ≤ n)
    (inside : s.pos.toNat + n ≤ s.inLen.toNat) (few : k ≤ 62) :
    (s.chunkCount + 1).toNat = s.chunkCount.toNat + 1 ∧
      (s.pixCount + BitVec.ofNat 64 k).toNat = s.pixCount.toNat + k := by
  have counted := h.chunkCount phase
  have pixels := h.pixCount.2
  have fits := s.inLen.isLt
  rw [BitVec.toNat_add, BitVec.toNat_add, BitVec.toNat_ofNat]
  have one : (1 : Word).toNat = 1 := rfl
  omega

/-- A commit of a chunk of `n` bytes and `k` pixels that lies inside `IN_LEN` (41_chunk_step.md R165). -/
theorem Inv.commit {s : State} (h : Inv s) (busy : s.status = .busy) (phase : s.phase = .chunks) {n k : Nat}
    (length : 1 ≤ n ∧ n ≤ 5) (inside : s.pos.toNat + n ≤ s.inLen.toNat) (pixels : 1 ≤ k ∧ k ≤ 62) (p : Pixel)
    (left : List Pixel) : Inv (State.commit p n k { s with out := s.out.finish left }) := by
  obtain ⟨chunkCount, pixCount⟩ := h.counts_after phase length.1 inside pixels.2
  have pos : (s.pos + BitVec.ofNat 32 n).toNat = s.pos.toNat + n := pos_add_toNat inside
  have counted := h.chunkCount phase
  have bounds := h.pixCount
  exact
    { memory := h.memory
      ctrl := h.ctrl
      valid := h.valid
      error := h.error
      knownTag := h.knownTag
      errPos := by
        have errPos := h.errPos
        rw [if_neg (by simp [busy])] at errPos
        exact errPos.trans (if_neg (by simp [busy])).symm
      header := fun header => by cases phase.symm.trans header
      idle := fun idle => by cases busy.symm.trans idle
      pos := fun _ _ => by simpa [pos] using inside
      chunkCount := fun _ => by
        simp only [commit_chunkCount, commit_pos, chunkCount, pos]
        omega
      pixCount := by
        simp only [commit_chunkCount, commit_pixCount, chunkCount, pixCount]
        omega
      slots := fun _ slot => by
        simp only [commit_cache, cacheWith_get]
        split
        · next own => exact .inr own.symm
        · exact h.slots (by simp [busy]) slot
      prevCached := fun _ => by simp only [commit_cache, commit_prev, cacheWith_get, if_true]
      moments := fun _ => by
        refine ⟨.inr ⟨rfl, rfl, rfl, h.valid.2 phase, ?_, ?_, chunkCount, ?_, ?_⟩, h.moments busy⟩
        · simp only [moment_pos, commit_pos, pos]
          omega
        · simp only [moment_pos, commit_pos, pos]
          omega
        · simp only [moment_pixCount, commit_pixCount, pixCount]
          omega
        · simp only [moment_pixCount, commit_pixCount, pixCount]
          omega
      offer := fun hne => absurd rfl hne
      sent := fun _ => rfl }

/-- A chunk that waits offers its next pixel (20_memory.md R75; log 6). -/
theorem Inv.wait {s : State} (h : Inv s) (busy : s.status = .busy) (phase : s.phase = .chunks) {bytes : List Byte}
    {i : Instr} (window : s.chunkWindow = .ok bytes) (decoded : decodeChunk bytes = .ok i) {o : OutPort}
    (waiting : Waiting s { s with out := o } (chunkPixels i s.prev s.cache)) : Inv { s with out := o } := by
  obtain ⟨offered, more⟩ := waiting.offered
  refine h.withOut (fun _ => ⟨busy, phase, bytes, i, window, decoded, offered⟩) fun none => ?_
  cases none.symm.trans (offered.trans (List.getElem?_eq_getElem more))

theorem chunk_byteLength_le {i : Instr} (hc : i.isChunk = true) : i.byteLength ≤ 5 := by
  cases i with
  | trailer => cases hc
  | header => cases hc
  | _ => simp [Instr.byteLength]

theorem Inv.blockMove {s t : State} (h : Inv s) (move : BlockMove s t) : Inv t := by
  cases move with
  | stays => exact h
  | headerRaises busy phase window rejected =>
    have noOffer := h.offer_eq_none fun _ _ chunks => by cases phase.symm.trans chunks
    exact h.raise busy (fun tag => (noInputHasAnUnknownTag _ _).2 (tag ▸ rejected)) noOffer
  | takesHeader busy phase _ _ inside => exact h.afterHeader busy phase inside _ _ _ _
  | chunkRaises busy phase window rejected =>
    have noOffer : s.out.offer = none := h.offer_eq_none fun bytes i _ window' decoded => by
      cases window.symm.trans window'
      cases rejected.symm.trans decoded
    exact h.raise busy (fun tag => (noInputHasAnUnknownTag 0 _).1 (tag ▸ rejected)) noOffer
  | ends busy phase window decoded inside =>
    have noOffer : s.out.offer = none := h.offer_eq_none fun bytes i _ window' decoded' => by
      cases window.symm.trans window'
      cases decoded.symm.trans decoded'
      rfl
    exact h.ends busy phase inside noOffer
  | @runsChunk bytes i busy phase window decoded isChunk wf inside =>
    rcases emitAndCommit_cases (chunkPixels i s.prev s.cache)
      ((chunkPixels i s.prev s.cache).getLast?.getD s.prev) i.byteLength s with ⟨_, commits⟩ | ⟨fewer, waits⟩
    · rw [commits]
      exact h.commit busy phase ⟨byteLength_pos i, chunk_byteLength_le isChunk⟩ inside
        (chunkPixels_length isChunk wf s.prev s.cache) _ _
    · rw [waits]
      exact h.wait busy phase window decoded (pause_waiting fewer)

/-! The statements. -/

/-- Settles O58: every step is one of the block's moves or of the host's, and each kind keeps the invariant. -/
theorem stepKeepsTheInvariant : Obligations.StepKeepsTheInvariant := by
  intro s t h ht
  match hsch : s.schedule with
  | [] => exact h.blockMove (blockMove_of_blockStep ((step_of_schedule_nil hsch).symm.trans ht))
  | .block :: rest =>
    exact (h.withHostSide rest s.readData s.draws).blockMove
      (blockMove_of_blockStep ((step_of_block hsch).symm.trans ht))
  | .host action :: rest =>
    exact (h.withHostSide rest s.readData s.draws).hostMove
      (hostMove_of_hostAct ((step_of_host hsch).symm.trans ht))

/-- Settles O57: the registers have their reset values, the buffer is empty and nothing is offered. -/
theorem invariantAtReset : Obligations.InvariantAtReset := inv_of_reset_registers [] 0 0 reset_memory_wf rfl rfl

end Sys2Proof.Machine

/-! SUPPORT. The registers as words and the values a read returns, and the placing of a byte; then the statements about the
host's accesses, the reset values and the output (10_state.md section 3; 20_memory.md R74, R80; 60_exceptions.md R279). -/

namespace Sys2Proof.Machine

/-! The registers as words. -/

theorem statusWord_toNat (status : Status) :
    status.word.toNat = (match status with | .idle => 0 | .busy => 1 | .done => 2 | .error => 3) := by
  cases status <;> rfl

theorem errorWord_toNat (error : Option FormatError) : (errorWord error).toNat = (match error with
    | none => 0 | some .badSignature => 1 | some .truncated => 2 | some .unknownChunkTag => 3
    | some .missingTrailer => 4) := by
  rcases error with _ | kind
  · rfl
  · cases kind <;> rfl

theorem hdrFmtWord_toNat (fmt : HdrFmt) :
    fmt.word.toNat = fmt.channels.toNat + 256 * fmt.colorspace.toNat + 65536 * fmt.valid.toNat := by
  simp only [HdrFmt.word, toNat_append_eq_add, BitVec.toNat_ofBool, BitVec.toNat_ofNat]
  omega

/-- The two words of `PIX_COUNT` (10_state.md R45). -/
theorem pixCount_low (count : BitVec 64) : (count.extractLsb' 0 32 : Word).toNat = count.toNat % 2 ^ 32 := by
  rw [toNat_extractLsb'_eq_div, pow_zero, Nat.div_one]

theorem pixCount_high (count : BitVec 64) : (count.extractLsb' 32 32 : Word).toNat = count.toNat / 2 ^ 32 := by
  have := count.isLt
  rw [toNat_extractLsb'_eq_div]
  omega

/-- The map of 10_state.md R35 past its last register. -/
theorem registerAt_reserved {offset : Nat} (h : 0x30 ≤ offset) (s : State) (m : Moment) : s.registerAt m offset = 0 := by
  unfold State.registerAt
  iterate 11 rw [if_neg (by omega)]

/-! Register reads. -/

theorem definedAccess_aligned {offset : Nat} (aligned : offset % 4 = 0) (inside : offset < 0x100) :
    definedAccess offset 4 = true := by
  simp [definedAccess, aligned, inside]

theorem readMoment_of_not_busy {s : State} (h : s.status ≠ .busy) : s.readMoment = s.moment := if_neg h

/-- While BUSY the read takes its value at the present or at one of the kept moments (70_reset_and_hazards.md R319). -/
theorem readMoment_mem (s : State) : s.readMoment ∈ s.moment :: s.moments := by
  unfold State.readMoment
  split
  · rw [List.getD_eq_getElem _ _ (by simpa using Nat.mod_lt _ (Nat.succ_pos _))]
    exact List.getElem_mem _
  · exact List.mem_cons_self

/-- A read uses up the host's move and changes the word read and the draw counter only (log 10). -/
theorem step_readReg_registerAt {s : State} {offset : Nat} {rest : List Move}
    (h : s.schedule = .host (.readReg offset 4) :: rest) (aligned : offset % 4 = 0) (inside : offset < 0x100) :
    step s = .next { s with
      schedule := rest, readData := s.registerAt s.readMoment offset, draws := s.draws + 1 } :=
  step_readReg h (definedAccess_aligned aligned inside)

/-! Undefined accesses and forbidden placings. -/

theorem definedAccess_eq_false {offset bytes : Nat} (h : bytes ≠ 4 ∨ offset % 4 ≠ 0) :
    definedAccess offset bytes = false := by
  rcases h with width | alignment <;> simp [definedAccess, *]

theorem step_load {s : State} {addr : Word} {value : Byte} {rest : List Move}
    (h : s.schedule = .host (.load addr value) :: rest) :
    step s = if s.loadForbidden addr value then .refused (.bufferChangedWhileBusy addr.toNat)
      else .next { s with schedule := rest, input := s.input.write addr.toNat value } :=
  step_of_host h

/-! The port after a reset. -/

/-- The sink stays with the stream, or has taken the one pixel that was offered (logs 11 and 19). -/
theorem OutPort.powerOn_stream_sink (o : OutPort) (delivered : Bool) :
    ((o.powerOn delivered).stream = o.stream ∧ (o.powerOn delivered).sink = o.sink) ∨
    ∃ p, o.offer = some p ∧ (o.powerOn delivered).stream = o.stream ++ [p] ∧
      (o.powerOn delivered).sink = o.sink.after 1 := by
  unfold OutPort.powerOn
  split
  · next p offered => exact .inr ⟨p, offered, rfl, rfl⟩
  · exact .inl ⟨rfl, rfl⟩

/-! The statements. -/

/-- Settles O52: outside BUSY the read takes its value at the present, by the map's row for the offset. -/
theorem registerMapReads : Obligations.RegisterMapReads := by
  intro s offset rest notBusy h aligned inside
  refine ⟨_, step_readReg_registerAt h aligned inside, ?_⟩
  rw [readMoment_of_not_busy notBusy]
  refine ⟨?ctrl, ?status, ?error, ?errPos, ?inLen, ?pos, ?hdrWidth, ?hdrHeight, ?hdrFmt, ?chunkCount, ?pixCountLow,
    ?pixCountHigh, fun high => registerAt_reserved high s _⟩ <;> rintro rfl
  case status => exact statusWord_toNat s.status
  case error => exact errorWord_toNat s.error
  case hdrFmt => exact hdrFmtWord_toNat s.hdrFmt
  case pixCountLow => exact pixCount_low s.pixCount
  case pixCountHigh => exact pixCount_high s.pixCount
  all_goals rfl

/-- Settles O53: the read takes its value at one moment, by the map's row for the offset; the registers that cannot change while
BUSY do not depend on the moment. -/
theorem busyReadIsAHeldValue : Obligations.BusyReadIsAHeldValue := by
  intro s offset rest busy h aligned inside
  refine ⟨_, step_readReg_registerAt h aligned inside, ?_⟩
  generalize held : s.readMoment = m
  refine ⟨?ctrl, ?status, ?error, ?errPos, ?inLen, fun high => registerAt_reserved high s m, m, held ▸ readMoment_mem s,
    ?pos, ?hdrWidth, ?hdrHeight, ?hdrFmt, ?chunkCount, ?pixCountLow, ?pixCountHigh⟩ <;> rintro rfl
  case status => exact congrArg Status.word busy
  case error => exact errorWord_toNat s.error
  case pixCountLow => exact pixCount_low m.pixCount
  case pixCountHigh => exact pixCount_high m.pixCount
  all_goals rfl

/-- Settles O55: the two clauses are whether the placing is forbidden, and a byte placed reads back alone. -/
theorem placingABufferByte : Obligations.PlacingABufferByte := by
  refine fun s addr value rest h => ⟨fun busy below change => ?refused, fun allowed => ?placed⟩
  case refused =>
    have forbidden : s.loadForbidden addr value = true := by
      rw [← Bool.not_eq_false, loadForbidden_eq_false_iff]
      exact fun allowed => change (allowed busy below)
    rw [step_load h, if_pos forbidden]
  case placed =>
    have notForbidden : s.loadForbidden addr value = false := by
      rw [loadForbidden_eq_false_iff]
      intro busy below
      rcases allowed with notBusy | beyond | same
      · exact absurd busy notBusy
      · exact absurd below (Nat.not_lt.2 beyond)
      · exact same
    refine ⟨s.input.write addr.toNat value, ?_, Memory.read_write_same _ _ _, fun _ => Memory.read_write_other _ _⟩
    rw [step_load h, notForbidden]
    rfl

/-- Settles O51: a write that is neither CTRL's nor `IN_LEN`'s uses up the host's move. -/
theorem readOnlyWritesHaveNoEffect : Obligations.ReadOnlyWritesHaveNoEffect := by
  intro s offset value rest h aligned inside noCtrl noInLen
  rw [step_writeReg h (definedAccess_aligned aligned inside), writeRegister_other noCtrl noInLen]

/-- Settles O54: only aligned accesses of 32 bits are defined. -/
theorem otherAccessesAreRefused : Obligations.OtherAccessesAreRefused := by
  intro s offset bytes value rest other
  have undefined := definedAccess_eq_false other
  refine ⟨fun h => ?write, fun h => ?read⟩
  case write => rw [step_of_host h, hostAct, undefined]; rfl
  case read => rw [step_of_host h, hostAct, undefined]; rfl

/-- Settles O46: a reset keeps the platform's side but for the one pixel that stood on the interface. -/
theorem powerOnLeavesThePlatform : Obligations.PowerOnLeavesThePlatform := fun _ _ h =>
  ⟨_, step_powerOn h, fun _ => rfl, rfl, rfl, rfl, OutPort.powerOn_sent _ _, OutPort.powerOn_stream_sink _ _⟩

/-- Settles O48: each value is a field of the state that `State.startDecode` gives. -/
theorem startLeavesTheOutput : Obligations.StartLeavesTheOutput := fun _ _ _ h start notBusy =>
  ⟨_, step_start h start notBusy, rfl, rfl, rfl, rfl, rfl, rfl⟩

/-- Settles O44: each value is a field of the reset state. -/
theorem resetValues : Obligations.ResetValues :=
  ⟨rfl, rfl, rfl, rfl, rfl, rfl, rfl, rfl, rfl, rfl, rfl, rfl, rfl, rfl⟩

/-- Settles O56: STATE has four values, of which DONE is 2 and ERROR is 3. -/
theorem doneOutput : Obligations.DoneOutput := by
  intro s
  unfold State.doneSignal
  cases s.status <;> decide

/-- Settles O13: the word is the four channels big-endian, so its bytes in stream order are the channels. -/
theorem pixelLayout : Obligations.PixelLayout := fun p =>
  ⟨wordOfBytes_toNat p.r p.g p.b p.a, (bytesOfWord_wordOfBytes p.r p.g p.b p.a).symm⟩

end Sys2Proof.Machine
